-- ==== Sys2Proof/Word.lean ====
section
/-! DEFINITION. The word types of the machine.
Every register is 32 bits wide and arithmetic wraps modulo 2^32 (R10, R21; decision D1 of the spec; log 28). -/
namespace Sys2Proof

/-- A byte, the addressable unit of main memory (R71). -/
abbrev Byte := BitVec 8

/-- A halfword, the unit of instruction fetch (R101). -/
abbrev Half := BitVec 16

/-- A 32-bit word: a general register, the pc, SR, every system and debug register (R10). -/
abbrev Word := BitVec 32

end Sys2Proof
end

