-- ==== Sys2Proof/Config.lean ====
section
/-! DEFINITION. What the implementation fixes: the shape of the OPEN parameters of R6, and the free values.
The parameters are plain data that State carries (log 1); their default values are in Machine/Defaults.lean.
The free values are opaque constants without a body: no proof can see what they are. -/
namespace Sys2Proof

/-- A Boolean function of finitely many named bits, written as a formula.
It is how R6's open Boolean functions (`OcdEnabled`, `VmmShared`, `MmuEnabled`, the rows of `COND_TABLE`) are plain data. -/
inductive BoolExpr (α : Type) where
  | const (b : Bool)
  | atom (a : α)
  | not (e : BoolExpr α)
  | and (e f : BoolExpr α)
  | or (e f : BoolExpr α)
  | iff (e f : BoolExpr α)
deriving DecidableEq, Repr

/-- The fields of SR that the table of R27 names. -/
inductive SrField where
  | c | z | n | v | q | l | t | r | gm | i0m | i1m | i2m | i3m | em | m0 | m1 | m2 | d | dm | j | h
deriving DecidableEq, Repr

/-- `SR_LAYOUT` (R6, R27): the bit position of each field of SR. -/
structure SrLayout where
  c : Fin 32
  z : Fin 32
  n : Fin 32
  v : Fin 32
  q : Fin 32
  l : Fin 32
  t : Fin 32
  r : Fin 32
  gm : Fin 32
  i0m : Fin 32
  i1m : Fin 32
  i2m : Fin 32
  i3m : Fin 32
  em : Fin 32
  m0 : Fin 32
  m1 : Fin 32
  m2 : Fin 32
  d : Fin 32
  dm : Fin 32
  j : Fin 32
  h : Fin 32
deriving DecidableEq, Repr

/-- The bits `lo` to `lo + width - 1` of a word.
DESIGN CHOICE (log 17, unsafe): those above bit 31 read as 0 and are not written; no default field has one. -/
structure BitField where
  lo : Nat
  width : Nat
deriving DecidableEq, Repr

/-- `MMU_LAYOUT` (R6, R40 to R43): the position of each field of TLBEHI, TLBELO, MMUCR and of a TLB entry.
`vpn`, `valid`, `itlb`, `asid` are fields of TLBEHI and of an entry's high word; `pfn`, `cacheable`, `global`, `bufferable`,
`access`, `size`, `dirty`, `writeThrough` of TLBELO and of an entry's low word; the others of MMUCR.
No rule gives an effect to `pfn`, `cacheable`, `bufferable`, `access`, `dirty`, `writeThrough`, `ila`, `dla`, `segmentation`,
`invalidate`; what `mode` and `enable` select is `VmmShared` and `MmuEnabled`, parameters of their own (log 17). -/
structure MmuLayout where
  vpn : BitField
  valid : BitField
  itlb : BitField
  asid : BitField
  /-- PFN -/
  pfn : BitField
  /-- C -/
  cacheable : BitField
  /-- G -/
  global : BitField
  /-- B -/
  bufferable : BitField
  /-- AP -/
  access : BitField
  /-- SZ -/
  size : BitField
  /-- D -/
  dirty : BitField
  /-- W -/
  writeThrough : BitField
  irp : BitField
  ila : BitField
  drp : BitField
  dla : BitField
  /-- S -/
  segmentation : BitField
  /-- N -/
  notFound : BitField
  /-- I -/
  invalidate : BitField
  /-- M -/
  mode : BitField
  /-- E -/
  enable : BitField
deriving DecidableEq, Repr

/-- The named system registers (R35). -/
inductive SysReg where
  | sr | evba | rsrDbg | rarDbg | tlbehi | tlbelo | mmucr
deriving DecidableEq, Repr

/-- `CACHE_POLICY` (R6, R143). -/
inductive CachePolicy where
  | refuse
  | nop
deriving DecidableEq, Repr

/-- `BKPT_RAR_OFFSET` (R142): the two fixed offsets, and the model that does not fix the parameter. -/
inductive RarOffset where
  | zero
  | two
  | unfixed
deriving DecidableEq, Repr

/-- The classes of instruction `PRIV_SET` may hold (R235): the 20 instructions, CSRF and SSRF split at bit 16 of SR. -/
inductive PrivClass where
  | breakpoint | cache | csrfLow | csrfHigh | csrfcz | frs | mfdr | mfsr | mtdr | mtsr | musfr | mustr | nop | pref
  | sleep | srCond | ssrfLow | ssrfHigh | sync | tlbr | tlbs | tlbw
deriving DecidableEq, Repr

/-- What `OcdEnabled(dbg, env)` may look at (R50): a bit of a debug register, or the environment. -/
inductive OcdAtom where
  | dbgBit (k : Fin 256) (bit : Fin 32)
  | environment
deriving DecidableEq, Repr

/-- An event the environment raises (R51, R226). -/
inductive AsyncEvent where
  | interrupt
  | nmi
  | debugRequest
  | reset
  | wake
deriving DecidableEq, Repr

/-- What `WakeEvent(m, env)` may look at (R185): a bit of the sleep mode, the kind of the event raised, or anything else of
the environment. -/
inductive WakeAtom where
  | modeBit (i : Fin 8)
  | event (e : AsyncEvent)
  | environment
deriving DecidableEq, Repr

/-- `SyncOp(op8)` (R6, R83, R190): for which operand values SYNC completes the pending loads, completes the pending stores
and empties the write buffers; each a function of the bits of Op8. -/
structure SyncOp where
  loads : BoolExpr (Fin 8)
  stores : BoolExpr (Fin 8)
  writeBuffers : BoolExpr (Fin 8)
deriving DecidableEq, Repr

/-- The 20 instructions, without their operands: the rows of `ENCODING_TABLE`. -/
inductive InstrName where
  | breakpoint | cache | csrf | csrfcz | frs | mfdr | mfsr | mtdr | mtsr | musfr | mustr | nop | pref | sleep | srCond | ssrf
  | sync | tlbr | tlbs | tlbw
deriving DecidableEq, Repr

/-- The operand fields of the formats of R103 to R110; their widths are the source's (R8, R111). -/
inductive FieldName where
  | reg | bp | cond | regNumber | op | disp
deriving DecidableEq, Repr

/-- The encoding of an instruction in words of `n` bits: a word `w` is the instruction when `w & mask = pattern` (R112), and
each operand field has its lowest bit at the listed position. -/
structure EncodingRow (n : Nat) where
  mask : BitVec n
  pattern : BitVec n
  fields : List (FieldName × Nat)
deriving DecidableEq, Repr

/-- The encoding and with it the length of an instruction: 2 bytes or 4 bytes (R100). -/
inductive InstrEncoding where
  | compact (row : EncodingRow 16)
  | extended (row : EncodingRow 32)
deriving DecidableEq, Repr

/-- `ENCODING_TABLE` (R5, R6): the rule of R101 that tells the length of a fetched instruction, as a mask and a pattern over the
first halfword, and the encoding and length of each of the 20 instructions.
BREAKPOINT is 2 bytes in every table: its length is the source's (R24, R100, R141). -/
structure EncodingTable where
  lengthMask : Half
  lengthPattern : Half
  breakpoint : EncodingRow 16
  cache : InstrEncoding
  csrf : InstrEncoding
  csrfcz : InstrEncoding
  frs : InstrEncoding
  mfdr : InstrEncoding
  mfsr : InstrEncoding
  mtdr : InstrEncoding
  mtsr : InstrEncoding
  musfr : InstrEncoding
  mustr : InstrEncoding
  nop : InstrEncoding
  pref : InstrEncoding
  sleep : InstrEncoding
  srCond : InstrEncoding
  ssrf : InstrEncoding
  sync : InstrEncoding
  tlbr : InstrEncoding
  tlbs : InstrEncoding
  tlbw : InstrEncoding
deriving DecidableEq, Repr

/-- The OPEN parameters of R6, one field each, in its order; `CacheCommand` is the opaque `Config.cacheCommand`. -/
structure Params where
  /-- `R15_ALIASES_PC` (R22). -/
  r15AliasesPc : Bool
  /-- `BIG_ENDIAN` (R74). -/
  bigEndian : Bool
  /-- `ENCODING_TABLE` (R5). -/
  encoding : EncodingTable
  /-- `SR_LAYOUT` (R27). -/
  srLayout : SrLayout
  /-- `SR_IMPLEMENTED_MASK` (R30). -/
  srMask : Word
  /-- `SYSREG_MAP` (R36): byte address to named register. -/
  sysRegMap : List (BitVec 10 × SysReg)
  /-- `DBG_PLAIN_STORAGE` (R38). -/
  dbgPlainStorage : Bool
  /-- `OcdEnabled` (R50). -/
  ocdEnabled : BoolExpr OcdAtom
  /-- `BKPT_RAR_OFFSET` (R142). -/
  bkptRarOffset : RarOffset
  /-- `BKPT_R_VALUE` (R141). -/
  bkptR : Bool
  /-- `BKPT_J_VALUE` (R141). -/
  bkptJ : Bool
  /-- `PRIV_SET` (R235). -/
  privSet : List PrivClass
  /-- `COND_TABLE` (R31): the truth function of each code over the fields of SR. -/
  condTable : Vector (BoolExpr SrField) 16
  /-- `CACHE_POLICY` (R143). -/
  cachePolicy : CachePolicy
  /-- `SleepMode` (R184, U4): each bit of the mode number as a function of the bits of Op8. -/
  sleepMode : Vector (BoolExpr (Fin 8)) 8
  /-- `WakeEvent` (R185). -/
  wakeEvent : BoolExpr WakeAtom
  /-- `SyncOp` (R83, U5). -/
  syncOp : SyncOp
  /-- `ITLB_ENTRIES` (R44). -/
  itlbEntries : Nat
  /-- `DTLB_ENTRIES` (R44). -/
  dtlbEntries : Nat
  /-- `MMU_LAYOUT` (R40 to R43). -/
  mmuLayout : MmuLayout
  /-- `PAGE_SIZE` (R79), as the base-2 logarithm of the page size of each SZ. -/
  pageShift : List Nat
  /-- `VmmShared` (R45), over the bits of MMUCR. -/
  vmmShared : BoolExpr (Fin 32)
  /-- `MmuEnabled` (R80), over the bits of a value of MMUCR. -/
  mmuEnabled : BoolExpr (Fin 32)
  /-- `SYSREG_HAZARD_WINDOW` (R266), counted in instructions. -/
  hazardWindow : Nat
  /-- `RESET_PC` (R260). -/
  resetPc : Word
  /-- `RESET_SR` (R260). -/
  resetSr : Word
  /-- `RESET_EVBA` (R260). -/
  resetEvba : Word
deriving DecidableEq, Repr

/-- The hidden contents of the caches (R47): a token that nothing in the model looks into. -/
structure CacheState where
  token : Nat
deriving DecidableEq, Repr, Inhabited

/-- FREE VALUE (R30, log 13): what the SR bits that hold no state read as, at draw `n`.
Which reads share a draw is the model's choice (log 13). -/
opaque Config.freeSr (n : Nat) : Word

/-- FREE VALUE (R38, log 12): what MFDR reads from debug register `k` at draw `n`, when debug registers are no plain storage. -/
opaque Config.freeDebug (k : Fin 256) (n : Nat) : Word

/-- FREE VALUE (R192, log 20): the pointer TLBS returns at draw `n` when no entry matches. -/
opaque Config.freePointer (n : Nat) : Nat

/-- FREE VALUE (R142, log 15): whether RAR_DBG holds the following address at draw `n`, when the offset is not fixed. -/
opaque Config.freeRarNext (n : Nat) : Bool

/-- FREE VALUE (R50, log 11): what the environment makes of "the on-chip debug system is enabled" at draw `n`,
given the debug registers. -/
opaque Config.ocdEnvironment (dbg : Vector Word 256) (n : Nat) : Bool

/-- FREE VALUE (R185, log 42): what the environment makes of "this ends the sleep" at draw `n`, given the sleep mode. -/
opaque Config.wakeEnvironment (mode : BitVec 8) (n : Nat) : Bool

/-- FREE VALUE (R143, log 22): `CacheCommand(sel, cmd, addr)`, the effect of a cache command on the hidden cache state. -/
opaque Config.cacheCommand (sel : BitVec 2) (cmd : BitVec 3) (addr : Word) (old : CacheState) : CacheState

/-- FREE VALUE (R182, log 22): the hidden cache state after a prefetch of `addr` at draw `n`. -/
opaque Config.cachePrefetch (addr : Word) (old : CacheState) (n : Nat) : CacheState

/-- FREE VALUE (R47, log 22): the hidden cache state after the fetch at `addr`, at draw `n`. -/
opaque Config.cacheFetch (addr : Word) (old : CacheState) (n : Nat) : CacheState

end Sys2Proof
end

