-- ==== Sys2Proof/Syntax.lean ====
section
/-! DEFINITION. The decoded instructions: a mnemonic with operand values (R3, R5), one constructor per row of the opcode table. -/
namespace Sys2Proof

/-- The index of a general register (R20). -/
abbrev Reg := Fin 16

/-- The byte address of a system or debug register, as the assembler writes it (R34, R37); WellFormed asks for a multiple of 4. -/
abbrev RegAddr := BitVec 10

/-- The sixteen conditions, in the source's order (R31); `cc` is also spelled hs, and `cs` lo (R119). -/
inductive Cond where
  | eq | ne | cc | cs | ge | lt | mi | pl | ls | gt | le | hi | vs | vc | qs | al
deriving DecidableEq, Repr

/-- The 20 instructions (R3). -/
inductive Instr where
  /-- `breakpoint` (R141). -/
  | breakpoint
  /-- `cache Rp[disp], Op5` (R143). -/
  | cache (p : Reg) (disp : BitVec 11) (op : BitVec 5)
  /-- `csrf bp` (R144). -/
  | csrf (bp : Fin 32)
  /-- `csrfcz bp` (R145). -/
  | csrfcz (bp : Fin 32)
  /-- `frs` (R146). -/
  | frs
  /-- `mfdr Rd, a` (R147). -/
  | mfdr (d : Reg) (a : RegAddr)
  /-- `mfsr Rd, a` (R148). -/
  | mfsr (d : Reg) (a : RegAddr)
  /-- `mtdr a, Rs` (R149). -/
  | mtdr (a : RegAddr) (s : Reg)
  /-- `mtsr a, Rs` (R150). -/
  | mtsr (a : RegAddr) (s : Reg)
  /-- `musfr Rs` (R151). -/
  | musfr (s : Reg)
  /-- `mustr Rd` (R152). -/
  | mustr (d : Reg)
  /-- `nop` (R180). -/
  | nop
  /-- `pref Rp[disp]` (R182). -/
  | pref (p : Reg) (disp : BitVec 16)
  /-- `sleep Op8` (R184). -/
  | sleep (op : BitVec 8)
  /-- `sr{cond4} Rd` (R186). -/
  | srCond (cond : Cond) (d : Reg)
  /-- `ssrf bp` (R188). -/
  | ssrf (bp : Fin 32)
  /-- `sync Op8` (R190). -/
  | sync (op : BitVec 8)
  /-- `tlbr` (R191). -/
  | tlbr
  /-- `tlbs` (R192). -/
  | tlbs
  /-- `tlbw` (R194). -/
  | tlbw
deriving DecidableEq, Repr

end Sys2Proof
end

