-- ==== Sys2Proof/WellFormed.lean ====
section
/-! DEFINITION. Which decoded instructions have operands inside the sets of R116: the types bound every operand
but the register address of the four moves, which is a multiple of 4 (R118). -/
namespace Sys2Proof

/-- The address operand is in {0, 4, ..., 1020} (R34, R37). -/
def RegAddr.aligned (a : RegAddr) : Bool := a.extractLsb' 0 2 == 0#2

/-- Every operand of the instruction is in its set (R116). -/
def Instr.wellFormed : Instr → Bool
  | .mfdr _ a => RegAddr.aligned a
  | .mfsr _ a => RegAddr.aligned a
  | .mtdr a _ => RegAddr.aligned a
  | .mtsr a _ => RegAddr.aligned a
  | .breakpoint | .cache _ _ _ | .csrf _ | .csrfcz _ | .frs | .musfr _ | .mustr _ | .nop | .pref _ _
  | .sleep _ | .srCond _ _ | .ssrf _ | .sync _ | .tlbr | .tlbs | .tlbw => true

/-- The instruction is one the assembler accepts. -/
abbrev Instr.WellFormed (i : Instr) : Prop := i.wellFormed = true

end Sys2Proof
end

