-- ==== Sys2Proof/Decode.lean ====
section
/-! DEFINITION. Decoding and encoding (R100 to R114): what `ENCODING_TABLE` says of each instruction, its default, the decoder and
the encoder.
The decoder takes `ENCODING_TABLE` as an argument; the encoder writes the words of its default, whose every bit pattern
is general knowledge of the spec's writer (log 5). -/
namespace Sys2Proof

/-! ### The table -/

/-- The encoding a table gives an instruction (R5, R6). -/
def EncodingTable.row (t : EncodingTable) : InstrName → InstrEncoding
  | .breakpoint => .compact t.breakpoint
  | .cache => t.cache
  | .csrf => t.csrf
  | .csrfcz => t.csrfcz
  | .frs => t.frs
  | .mfdr => t.mfdr
  | .mfsr => t.mfsr
  | .mtdr => t.mtdr
  | .mtsr => t.mtsr
  | .musfr => t.musfr
  | .mustr => t.mustr
  | .nop => t.nop
  | .pref => t.pref
  | .sleep => t.sleep
  | .srCond => t.srCond
  | .ssrf => t.ssrf
  | .sync => t.sync
  | .tlbr => t.tlbr
  | .tlbs => t.tlbs
  | .tlbw => t.tlbw

/-- The instructions in the order of the opcode table. -/
def instrNames : List InstrName :=
  [.breakpoint, .cache, .csrf, .csrfcz, .frs, .mfdr, .mfsr, .mtdr, .mtsr, .musfr, .mustr, .nop, .pref, .sleep, .srCond,
   .ssrf, .sync, .tlbr, .tlbs, .tlbw]

/-- The instructions a table makes compact, with their rows (R100). -/
def EncodingTable.compactRows (t : EncodingTable) : List (InstrName × EncodingRow 16) :=
  instrNames.filterMap fun o =>
    match t.row o with
    | .compact r => some (o, r)
    | .extended _ => none

/-- The instructions a table makes extended, with their rows (R100). -/
def EncodingTable.extendedRows (t : EncodingTable) : List (InstrName × EncodingRow 32) :=
  instrNames.filterMap fun o =>
    match t.row o with
    | .compact _ => none
    | .extended r => some (o, r)

/-- The length in bytes that an encoding has (R100). -/
def InstrEncoding.ilen : InstrEncoding → Nat
  | .compact _ => 2
  | .extended _ => 4

/-- The instruction without its operands. -/
def Instr.name : Instr → InstrName
  | .breakpoint => .breakpoint
  | .cache _ _ _ => .cache
  | .csrf _ => .csrf
  | .csrfcz _ => .csrfcz
  | .frs => .frs
  | .mfdr _ _ => .mfdr
  | .mfsr _ _ => .mfsr
  | .mtdr _ _ => .mtdr
  | .mtsr _ _ => .mtsr
  | .musfr _ => .musfr
  | .mustr _ => .mustr
  | .nop => .nop
  | .pref _ _ => .pref
  | .sleep _ => .sleep
  | .srCond _ _ => .srCond
  | .ssrf _ => .ssrf
  | .sync _ => .sync
  | .tlbr => .tlbr
  | .tlbs => .tlbs
  | .tlbw => .tlbw

/-- `ilen`, the length of an instruction in bytes, which is part of the table (R6, R24, R100). -/
def Instr.ilen (i : Instr) (t : EncodingTable) : Nat := (t.row i.name).ilen

/-! ### The fields of a word -/

/-- The word is the row's instruction (R112). -/
def EncodingRow.accepts {n : Nat} (r : EncodingRow n) (w : BitVec n) : Bool := w &&& r.mask == r.pattern

/-- An operand field of a word, `width` bits wide, its lowest bit at the position the row lists (R103 to R110).
DESIGN CHOICE (log 5, unsafe): a field with no listed position is read at bit 0, one listed twice at its first entry, and a bit
above the top of the word reads as 0; in the default table none of these occurs. -/
def EncodingRow.field {n : Nat} (r : EncodingRow n) (f : FieldName) (width : Nat) (w : BitVec n) : BitVec width :=
  w.extractLsb' ((r.fields.lookup f).getD 0) width

/-- The conditions in the source's order (R31). -/
def condList : Vector Cond 16 :=
  #v[.eq, .ne, .cc, .cs, .ge, .lt, .mi, .pl, .ls, .gt, .le, .hi, .vs, .vc, .qs, .al]

/-- The condition of a cond4 code: its position in the source's list (R111). -/
def Cond.ofCode (code : BitVec 4) : Cond := condList[code.toNat]

/-- The cond4 code of a condition (R111). -/
def Cond.code : Cond → BitVec 4
  | .eq => 0 | .ne => 1 | .cc => 2 | .cs => 3 | .ge => 4 | .lt => 5 | .mi => 6 | .pl => 7
  | .ls => 8 | .gt => 9 | .le => 10 | .hi => 11 | .vs => 12 | .vc => 13 | .qs => 14 | .al => 15

/-- The byte address a register number stands for: `a = k8 << 2` (R111, C1). -/
def RegAddr.ofNumber (k : BitVec 8) : RegAddr := k ++ 0#2

/-- The register number of a byte address: `k8 = a >> 2` (R111, C1). -/
def RegAddr.number (a : RegAddr) : BitVec 8 := a.extractLsb' 2 8

/-- The register operand of a word (R20, R111). -/
def EncodingRow.register {n : Nat} (r : EncodingRow n) (w : BitVec n) : Reg := (r.field .reg 4 w).toFin

/-- The bit number of a word (R104, R111). -/
def EncodingRow.bitNumber {n : Nat} (r : EncodingRow n) (w : BitVec n) : Fin 32 := (r.field .bp 5 w).toFin

/-- The byte address whose number a word carries (R107, R111). -/
def EncodingRow.address {n : Nat} (r : EncodingRow n) (w : BitVec n) : RegAddr := RegAddr.ofNumber (r.field .regNumber 8 w)

/-- The instruction a word is, once its row is found (R103 to R111). -/
def EncodingRow.instr {n : Nat} (r : EncodingRow n) (o : InstrName) (w : BitVec n) : Instr :=
  match o with
  | .breakpoint => .breakpoint
  | .cache => .cache (r.register w) (r.field .disp 11 w) (r.field .op 5 w)
  | .csrf => .csrf (r.bitNumber w)
  | .csrfcz => .csrfcz (r.bitNumber w)
  | .frs => .frs
  | .mfdr => .mfdr (r.register w) (r.address w)
  | .mfsr => .mfsr (r.register w) (r.address w)
  | .mtdr => .mtdr (r.address w) (r.register w)
  | .mtsr => .mtsr (r.address w) (r.register w)
  | .musfr => .musfr (r.register w)
  | .mustr => .mustr (r.register w)
  | .nop => .nop
  | .pref => .pref (r.register w) (r.field .disp 16 w)
  | .sleep => .sleep (r.field .op 8 w)
  | .srCond => .srCond (Cond.ofCode (r.field .cond 4 w)) (r.register w)
  | .ssrf => .ssrf (r.bitNumber w)
  | .sync => .sync (r.field .op 8 w)
  | .tlbr => .tlbr
  | .tlbs => .tlbs
  | .tlbw => .tlbw

/-! ### The default table -/

/-- The default `ENCODING_TABLE`: a first halfword with bits [15:13] = 0b111 is extended (R101); the lengths are R100's, the rows
R112's, the fields at the places of R103 to R110. -/
def defaultEncoding : EncodingTable :=
  { lengthMask := 0xE000
    lengthPattern := 0xE000
    breakpoint := ⟨0xFFFF, 0xD673, []⟩
    cache := .extended ⟨0xFFF00000, 0xF4100000, [(.reg, 16), (.op, 11), (.disp, 0)]⟩
    csrf := .compact ⟨0xFE0F, 0xD403, [(.bp, 4)]⟩
    csrfcz := .compact ⟨0xFE0F, 0xD003, [(.bp, 4)]⟩
    frs := .compact ⟨0xFFFF, 0xD743, []⟩
    mfdr := .extended ⟨0xFFF0FF00, 0xE5B00000, [(.reg, 16), (.regNumber, 0)]⟩
    mfsr := .extended ⟨0xFFF0FF00, 0xE1B00000, [(.reg, 16), (.regNumber, 0)]⟩
    mtdr := .extended ⟨0xFFF0FF00, 0xE7B00000, [(.reg, 16), (.regNumber, 0)]⟩
    mtsr := .extended ⟨0xFFF0FF00, 0xE3B00000, [(.reg, 16), (.regNumber, 0)]⟩
    musfr := .compact ⟨0xFFF0, 0x5D30, [(.reg, 0)]⟩
    mustr := .compact ⟨0xFFF0, 0x5D20, [(.reg, 0)]⟩
    nop := .compact ⟨0xFFFF, 0xD703, []⟩
    pref := .extended ⟨0xFFF00000, 0xF2100000, [(.reg, 16), (.disp, 0)]⟩
    sleep := .extended ⟨0xFFFFFF00, 0xE9B00000, [(.op, 0)]⟩
    srCond := .compact ⟨0xFF00, 0x5F00, [(.cond, 4), (.reg, 0)]⟩
    ssrf := .compact ⟨0xFE0F, 0xD203, [(.bp, 4)]⟩
    sync := .extended ⟨0xFFFFFF00, 0xEBB00000, [(.op, 0)]⟩
    tlbr := .compact ⟨0xFFFF, 0xD643, []⟩
    tlbs := .compact ⟨0xFFFF, 0xD653, []⟩
    tlbw := .compact ⟨0xFFFF, 0xD663, []⟩ }

/-! ### Decoding -/

/-- Why bytes are no instruction of this model. -/
inductive DecodeError where
  /-- The bytes end before the instruction does. -/
  | truncated
  /-- A compact word that matches no row (R113). -/
  | unknownCompact (w : Half)
  /-- An extended word that matches no row (R113, R114). -/
  | unknownExtended (w : Word)
deriving DecidableEq, Repr

/-- The first halfword belongs to an extended instruction: by default `h0[15:13] = 0b111` (R101). -/
def isExtended (t : EncodingTable) (h0 : Half) : Bool := h0 &&& t.lengthMask == t.lengthPattern

/-- The first instruction whose row accepts the word, and its row (R112).
DESIGN CHOICE (log 5, unsafe): the order counts only in a table that gives two instructions one word, which the default does not. -/
def findRow {n : Nat} (rows : List (InstrName × EncodingRow n)) (w : BitVec n) : Option (InstrName × EncodingRow n) :=
  rows.find? (·.2.accepts w)

/-- Decode a 16-bit instruction word (R101, R112). -/
def decodeCompact (t : EncodingTable) (w : Half) : Except DecodeError Instr :=
  match findRow t.compactRows w with
  | some (o, r) => .ok (r.instr o w)
  | none => .error (.unknownCompact w)

/-- Decode a 32-bit instruction word, the first halfword in bits [31:16] (R101, R112). -/
def decodeExtended (t : EncodingTable) (w : Word) : Except DecodeError Instr :=
  match findRow t.extendedRows w with
  | some (o, r) => .ok (r.instr o w)
  | none => .error (.unknownExtended w)

/-- The halfword at two bytes, the one at the lower address first (R74). -/
def halfOfBytes (bigEndian : Bool) (b0 b1 : Byte) : Half := if bigEndian then b0 ++ b1 else b1 ++ b0

/-- The two bytes of a halfword, the one at the lower address first (R74). -/
def bytesOfHalf (bigEndian : Bool) (h : Half) : List Byte :=
  if bigEndian then [h.extractLsb' 8 8, h.extractLsb' 0 8] else [h.extractLsb' 0 8, h.extractLsb' 8 8]

/-- Decode the instruction at the front of `bytes` and return the rest: the length rule of R101, then R112. -/
def decode (t : EncodingTable) (bigEndian : Bool) (bytes : List Byte) : Except DecodeError (Instr × List Byte) :=
  match bytes with
  | b0 :: b1 :: rest =>
    let h0 := halfOfBytes bigEndian b0 b1
    if isExtended t h0 then
      match rest with
      | b2 :: b3 :: rest' => (decodeExtended t (h0 ++ halfOfBytes bigEndian b2 b3)).map (·, rest')
      | _ => .error .truncated
    else (decodeCompact t h0).map (·, rest)
  | _ => .error .truncated

/-! ### Encoding -/

/-- An instruction word of R101. -/
inductive InstrWord where
  | compact (w : Half)
  | extended (w : Word)
deriving DecidableEq, Repr

/-- Format CB (R104). -/
def formatCB (opcode : BitVec 7) (bp : Fin 32) : InstrWord := .compact (opcode ++ BitVec.ofFin (w := 5) bp ++ 0b0011#4)

/-- Format CR (R105). -/
def formatCR (opcode : BitVec 12) (r : Reg) : InstrWord := .compact (opcode ++ BitVec.ofFin (w := 4) r)

/-- Format ERK8 (R107). -/
def formatERK8 (opcode : BitVec 12) (r : Reg) (a : RegAddr) : InstrWord :=
  .extended (opcode ++ BitVec.ofFin (w := 4) r ++ 0#8 ++ RegAddr.number a)

/-- Format EK8 (R108). -/
def formatEK8 (opcode : BitVec 12) (op : BitVec 8) : InstrWord := .extended (opcode ++ 0#12 ++ op)

/-- The word of an instruction under the default table (R103 to R110, R112). -/
def Instr.encode : Instr → InstrWord
  | .breakpoint => .compact 0b1101011001110011
  | .cache p disp op => .extended (0b111101000001#12 ++ BitVec.ofFin (w := 4) p ++ op ++ disp)
  | .csrf bp => formatCB 0b1101010 bp
  | .csrfcz bp => formatCB 0b1101000 bp
  | .frs => .compact 0b1101011101000011
  | .mfdr d a => formatERK8 0b111001011011 d a
  | .mfsr d a => formatERK8 0b111000011011 d a
  | .mtdr a s => formatERK8 0b111001111011 s a
  | .mtsr a s => formatERK8 0b111000111011 s a
  | .musfr s => formatCR 0b010111010011 s
  | .mustr d => formatCR 0b010111010010 d
  | .nop => .compact 0b1101011100000011
  | .pref p disp => .extended (0b111100100001#12 ++ BitVec.ofFin (w := 4) p ++ disp)
  | .sleep op => formatEK8 0b111010011011 op
  | .srCond cond d => .compact (0b01011111#8 ++ cond.code ++ BitVec.ofFin (w := 4) d)
  | .ssrf bp => formatCB 0b1101001 bp
  | .sync op => formatEK8 0b111010111011 op
  | .tlbr => .compact 0b1101011001000011
  | .tlbs => .compact 0b1101011001010011
  | .tlbw => .compact 0b1101011001100011

/-- The bytes of an instruction word, the lowest address first: the first halfword is at the lower address (R74). -/
def InstrWord.bytes (bigEndian : Bool) : InstrWord → List Byte
  | .compact w => bytesOfHalf bigEndian w
  | .extended w => bytesOfHalf bigEndian (w.extractLsb' 16 16) ++ bytesOfHalf bigEndian (w.extractLsb' 0 16)

/-- The bytes of an instruction, the lowest address first. -/
def Instr.encodeBytes (bigEndian : Bool) (i : Instr) : List Byte := i.encode.bytes bigEndian

/-! ### The opcode table's numbering -/

/-- The word of `nbits` bits numbered as `opcode_table.json` numbers it: a compact row is its halfword, an extended row
is `{h0, h1}` with the first halfword in bits [31:16] (R101, R102; log 32). -/
def tableWord (nbits w : Nat) : InstrWord :=
  if nbits ≤ 16 then .compact (BitVec.ofNat 16 w) else .extended (BitVec.ofNat 32 w)

/-- The bytes of a table word as the hardware stores them, filled with zero bytes up to the longest instruction. -/
def tableBytes (bigEndian : Bool) (nbits w : Nat) : List Byte :=
  ((tableWord nbits w).bytes bigEndian ++ [0, 0]).take 4

/-- The instruction the decoder reads from a word numbered as the opcode table numbers it. -/
def decodeTableWord (nbits w : Nat) : Option Instr :=
  match decode defaultEncoding true (tableBytes true nbits w) with
  | .ok (i, _) => some i
  | .error _ => none

end Sys2Proof
end

