-- ==== Sys2Proof/Machine/Bits.lean ====
section
/-! DEFINITION. Bits and fields of a word (R7), sign extension (R9), and the value of a Boolean formula. -/
namespace Sys2Proof.Machine

/-- The word with bit `i` set to `b` and every other bit kept. -/
def setBit (w : Word) (i : Fin 32) (b : Bool) : Word :=
  if b then w ||| ((1 : Word) <<< i.val) else w &&& ~~~((1 : Word) <<< i.val)

/-- The bits a field covers, at the bottom of a word. -/
def fieldOnes (f : BitField) : Word := BitVec.ofNat 32 (2 ^ f.width - 1)

/-- The value of a field of a word. -/
def getField (f : BitField) (w : Word) : Nat := ((w >>> f.lo) &&& fieldOnes f).toNat

/-- The word with a field set to the low bits of `v` and every other bit kept. -/
def setField (f : BitField) (v : Nat) (w : Word) : Word :=
  (w &&& ~~~(fieldOnes f <<< f.lo)) ||| ((BitVec.ofNat 32 v &&& fieldOnes f) <<< f.lo)

/-- The bits of `v` where `mask` is 1, the bits of `w` elsewhere. -/
def mergeBits (mask v w : Word) : Word := (v &&& mask) ||| (w &&& ~~~mask)

/-- Sign extension to 32 bits (R9). -/
def sext32 {n : Nat} (v : BitVec n) : Word := v.signExtend 32

/-- Zero extension to 32 bits (R9). -/
def zext32 {n : Nat} (v : BitVec n) : Word := v.zeroExtend 32

/-- The value of a Boolean formula, given the value of its atoms. -/
def evalBool {α : Type} (val : α → Bool) : BoolExpr α → Bool
  | .const b => b
  | .atom a => val a
  | .not e => !evalBool val e
  | .and e f => evalBool val e && evalBool val f
  | .or e f => evalBool val e || evalBool val f
  | .iff e f => evalBool val e == evalBool val f

end Sys2Proof.Machine
end

