-- ==== Sys2Proof/Machine/Defaults.lean ====
section
/-! DEFINITION. The default values of R6's parameters.
Where R6 gives a default it is the spec's (general knowledge of its writer, logs 5 to 19); where R6 gives none, or the
model takes another alternative of the spec, the definition says so. -/
namespace Sys2Proof.Machine

/-- The default `SR_LAYOUT`: the table of R27. -/
def defaultSrLayout : SrLayout :=
  { c := 0, z := 1, n := 2, v := 3, q := 4, l := 5, t := 14, r := 15, gm := 16, i0m := 17, i1m := 18, i2m := 19
    i3m := 20, em := 21, m0 := 22, m1 := 23, m2 := 24, d := 26, dm := 27, j := 28, h := 29 }

/-- The default `SR_IMPLEMENTED_MASK` (R30). -/
def defaultSrMask : Word := 0x3DFFC03F

/-- The default `SYSREG_MAP` (R36). -/
def defaultSysRegMap : List (BitVec 10 × SysReg) :=
  [(0, .sr), (4, .evba), (48, .rsrDbg), (80, .rarDbg), (272, .tlbehi), (276, .tlbelo), (288, .mmucr)]

/-- The default `COND_TABLE`: the table of R31, in the order of the codes. -/
def defaultCondTable : Vector (BoolExpr SrField) 16 :=
  let c := BoolExpr.atom SrField.c
  let z := BoolExpr.atom SrField.z
  let n := BoolExpr.atom SrField.n
  let v := BoolExpr.atom SrField.v
  let q := BoolExpr.atom SrField.q
  #v[z, .not z, .not c, c, .iff n v, .not (.iff n v), n, .not n,
     .or c z, .and (.not z) (.iff n v), .or z (.not (.iff n v)), .and (.not c) (.not z), v, .not v, q, .const true]

/-- The default `PRIV_SET` (R235). -/
def defaultPrivSet : List PrivClass :=
  [.cache, .csrfHigh, .ssrfHigh, .mfdr, .mfsr, .mtdr, .mtsr, .sleep, .tlbr, .tlbs, .tlbw]

/-- The default `MMU_LAYOUT` (R40 to R42). -/
def defaultMmuLayout : MmuLayout :=
  { vpn := ⟨10, 22⟩, valid := ⟨9, 1⟩, itlb := ⟨8, 1⟩, asid := ⟨0, 8⟩
    pfn := ⟨10, 22⟩, cacheable := ⟨9, 1⟩, global := ⟨8, 1⟩, bufferable := ⟨7, 1⟩, access := ⟨4, 3⟩, size := ⟨2, 2⟩
    dirty := ⟨1, 1⟩, writeThrough := ⟨0, 1⟩
    irp := ⟨26, 6⟩, ila := ⟨20, 6⟩, drp := ⟨14, 6⟩, dla := ⟨8, 6⟩, segmentation := ⟨4, 1⟩, notFound := ⟨3, 1⟩
    invalidate := ⟨2, 1⟩, mode := ⟨1, 1⟩, enable := ⟨0, 1⟩ }

/-- The default `PAGE_SIZE`: 1 KiB, 4 KiB, 64 KiB, 1 MiB (R79), as base-2 logarithms. -/
def defaultPageShift : List Nat := [10, 12, 16, 20]

/-- `SleepMode` as the identity: the mode number is Op8.
DESIGN CHOICE (log 41, safe): R6 gives no default and the spec no meaning to a mode. -/
def operandSleepMode : Vector (BoolExpr (Fin 8)) 8 :=
  #v[.atom 0, .atom 1, .atom 2, .atom 3, .atom 4, .atom 5, .atom 6, .atom 7]

/-- `SyncOp` as the spec's default: every operand value is the full barrier (D20, U5). -/
def fullBarrier : SyncOp := ⟨.const true, .const true, .const true⟩

/-- The parameters of the machine after reset.
Three are not defaults of the spec.
DESIGN CHOICE (log 6, unsafe): `cachePolicy` is `nop`, the alternative of R143 that executes.
DESIGN CHOICE (logs 9 and 16, unsafe): the hazard window is 0 and each TLB has 4 entries, where R6 gives no value.
DESIGN CHOICE (log 41, safe): `sleepMode` is the identity.
`ocdEnabled` and `wakeEvent` are left open: each is the environment's free value (logs 11 and 42). -/
def defaultParams : Params :=
  { r15AliasesPc := true
    bigEndian := true
    encoding := defaultEncoding
    srLayout := defaultSrLayout
    srMask := defaultSrMask
    sysRegMap := defaultSysRegMap
    dbgPlainStorage := false
    ocdEnabled := .atom .environment
    bkptRarOffset := .zero
    bkptR := true
    bkptJ := true
    privSet := defaultPrivSet
    condTable := defaultCondTable
    cachePolicy := .nop
    sleepMode := operandSleepMode
    wakeEvent := .atom .environment
    syncOp := fullBarrier
    itlbEntries := 4
    dtlbEntries := 4
    mmuLayout := defaultMmuLayout
    pageShift := defaultPageShift
    vmmShared := .atom 1
    mmuEnabled := .atom 0
    hazardWindow := 0
    resetPc := 0x80000000
    resetSr := 0x00610000
    resetEvba := 0 }

end Sys2Proof.Machine
end

