-- ==== Sys2Proof/Machine/State.lean ====
section
/-! DEFINITION. The state of the machine (R52), the state after reset (R260), and the reasons a step can stop.
State is plain data and holds every piece of state the spec names; INVENTORY.md lists it. -/
namespace Sys2Proof.Machine

/-- An entry of a TLB: the TLBEHI image and the TLBELO image, 64 bits together (R43). -/
structure TlbEntry where
  hi : Word
  lo : Word
deriving DecidableEq, Repr

/-- A memory access that was issued and has not been performed, or a store waiting in a write buffer (R48). -/
structure MemAccess where
  isStore : Bool
  addr : Word
  bytes : List Byte
deriving DecidableEq, Repr

/-- A register whose recent write a later instruction may depend on (R266). -/
inductive HazardTarget where
  | sys (r : SysReg)
  | dbg (k : Fin 256)
deriving DecidableEq, Repr

/-- An open hazard window: the register written, and how many of the following instructions it still covers (R266). -/
structure HazardWindow where
  target : HazardTarget
  left : Nat
deriving DecidableEq, Repr

/-- Main memory: the bytes that exist, by address, addresses strictly rising (R71; log 4).
An address that is not listed holds no byte. -/
abbrev Memory := List Host.Cell

/-- The state of the machine (R52). -/
structure State where
  /-- The OPEN parameters of R6, which no step changes (log 1). -/
  params : Params
  /-- x[0..15], the general registers (R20). -/
  x : Vector Word 16
  /-- The address of the instruction being executed (R23). -/
  pc : Word
  /-- SR; only the bits of `SR_IMPLEMENTED_MASK` hold state (R26, R30). -/
  sr : Word
  /-- EVBA (R32). -/
  evba : Word
  /-- RSR_DBG (R33). -/
  rsrDbg : Word
  /-- RAR_DBG (R33). -/
  rarDbg : Word
  /-- TLBEHI (R40). -/
  tlbehi : Word
  /-- TLBELO (R41). -/
  tlbelo : Word
  /-- MMUCR (R42). -/
  mmucr : Word
  /-- The instruction TLB (R44). -/
  itlb : List TlbEntry
  /-- The data TLB (R44). -/
  dtlb : List TlbEntry
  /-- dbg[0..255], the debug registers by register number (R37, R38). -/
  dbg : Vector Word 256
  /-- The return address stack, a list of opaque entries (R46). -/
  ras : List Word
  /-- The hidden contents of the caches (R47). -/
  cache : CacheState
  /-- The accesses that are issued and not performed (R48). -/
  pending : List MemAccess
  /-- The stores in the write buffers (R48). -/
  writeBuffers : List MemAccess
  /-- The sleep mode, `none` when running (R49). -/
  sleep : Option (BitVec 8)
  /-- The events the environment has raised, the earliest first (R51, R226); the premise NoAsyncEvents says there is none,
and a step that meets one is refused. -/
  events : List AsyncEvent
  /-- Main memory (R71). -/
  mem : Memory
  /-- The open hazard windows (R266). -/
  windows : List HazardWindow
  /-- The model's own field (log 38): how many draws were made; the free values are applied to it. -/
  draws : Nat
deriving DecidableEq, Repr

/-- The machine right after reset, for given parameters (R260).
pc, SR and EVBA are `RESET_PC`, `RESET_SR`, `RESET_EVBA`; sleep is none and no access is pending (R52).
DESIGN CHOICE (log 2, unsafe): every register the spec leaves unspecified is 0, the return address stack is empty. -/
def State.resetWith (p : Params) : State :=
  { params := p
    x := Vector.replicate 16 0
    pc := p.resetPc
    sr := p.resetSr &&& p.srMask
    evba := p.resetEvba
    rsrDbg := 0
    rarDbg := 0
    tlbehi := 0
    tlbelo := 0
    mmucr := 0
    itlb := List.replicate p.itlbEntries ⟨0, 0⟩
    dtlb := List.replicate p.dtlbEntries ⟨0, 0⟩
    dbg := Vector.replicate 256 0
    ras := []
    cache := ⟨0⟩
    pending := []
    writeBuffers := []
    sleep := none
    events := []
    mem := []
    windows := []
    draws := 0 }

/-- The machine right after reset (R260), with the default parameters. -/
def State.reset : State := State.resetWith defaultParams

/-- Why the machine is stuck. -/
inductive Fault where
  /-- Instruction fetch from an address at which the launch memory holds no byte (R264 case c, U20).
  Raised by the fetch of a step. Safe: no later state can be claimed. -/
  | stuckFetch (addr : Word)
deriving DecidableEq, Repr

/-- Why a step has no meaning in the spec. All are safe: no later state can be claimed. -/
inductive Refusal where
  /-- An instruction the model does not model; no arm of exec raises it. Safe. -/
  | notModelled (mnemonic : String)
  /-- The word is none of the 20 instructions (R113, R114). Raised by the fetch of a step. Safe. -/
  | notOneOfThe20 (e : DecodeError)
  /-- The pc is odd (R25). Raised by the fetch of a step. Safe. -/
  | misalignedPc
  /-- SR[J] = 1 selects another instruction set (R101). Raised by the fetch of a step. Safe. -/
  | javaState
  /-- Address translation is on, against the premise MMUDisabled (R80). Raised by the fetch of a step. Safe. -/
  | translationEnabled
  /-- The environment raised an event, against the premise NoAsyncEvents (R226), and no mask of SR shuts it out (R225).
  Raised by a step, before the fetch. Safe. -/
  | asyncEvent (e : AsyncEvent)
  /-- The environment raised an event, against the premise NoAsyncEvents (R226), that a mask of SR shuts out (R225, R29).
  Raised by a step, before the fetch. Safe. -/
  | maskedEvent (e : AsyncEvent)
  /-- The environment raised an event that ends the sleep (R185), against the premise NoAsyncEvents (R226); where execution
  would resume is not in the source (N16). Raised by the step of a sleeping core. Safe. -/
  | wakeEvent (mode : BitVec 8) (e : AsyncEvent)
  /-- An operand outside its set (R118), which no word decodes to (log 29). Raised by every instruction. Safe. -/
  | operandOutsideItsSet
  /-- A register operand is 15 and `R15_ALIASES_PC` holds (R22). Raised by the instructions with a register operand. Safe. -/
  | registerOperand15
  /-- An instruction of `PRIV_SET` in application mode (R235). Raised by the instructions of `PRIV_SET`. Safe. -/
  | privilegedInApplicationMode
  /-- The instruction depends on a register an MTSR or MTDR wrote too recently (R266). Raised by every instruction but NOP. Safe. -/
  | systemRegisterHazard
  /-- The address holds no mapped system register (R35). Raised by MFSR and MTSR. Safe. -/
  | unmappedSystemRegister
  /-- The value would turn address translation on (R80). Raised by MTSR to MMUCR. Safe. -/
  | mmuEnable
  /-- The pointer is not below the number of entries (R44). Raised by TLBR and TLBW. Safe. -/
  | tlbIndexOutOfRange
  /-- `CACHE_POLICY` is refuse (R143). Raised by CACHE. Safe. -/
  | cacheCommandIsImplementationDefined
deriving DecidableEq, Repr

end Sys2Proof.Machine
end

