-- ==== Sys2Proof/Machine/Ops.lean ====
section
/-! DEFINITION. The named operations over registers, SR, memory, the TLBs and the debug registers, and taking the
breakpoint trap. Every access to a piece of state goes through its operation here. -/
namespace Sys2Proof.Machine

/-! ### General registers and the pc -/

/-- `x[r]` (R11). -/
def readReg (s : State) (r : Reg) : Word := s.x[r]

/-- `x[d] <- v` (R11). -/
def writeReg (s : State) (d : Reg) (v : Word) : State := { s with x := s.x.set d v }

/-- `pc <- pc + n`, modulo 2^32 (R24). -/
def advance (s : State) (n : Nat) : State := { s with pc := s.pc + BitVec.ofNat 32 n }

/-! ### The status register -/

/-- The state with a fresh draw: only the free values differ (R30, log 13). -/
def redrawn (s : State) : State := { s with draws := s.draws + 1 }

/-- SR bit `i`; a bit outside `SR_IMPLEMENTED_MASK` holds no state and reads as a free value (R30). -/
def srBit (s : State) (i : Fin 32) : Bool :=
  if s.params.srMask.getLsbD i then s.sr.getLsbD i else (Config.freeSr s.draws).getLsbD i

/-- The whole SR as an instruction reads it (R30). -/
def readSr (s : State) : Word := mergeBits s.params.srMask s.sr (Config.freeSr s.draws)

/-- Write SR bit `i`; a write outside `SR_IMPLEMENTED_MASK` is discarded (R30). -/
def writeSrBit (s : State) (i : Fin 32) (b : Bool) : State :=
  if s.params.srMask.getLsbD i then { s with sr := setBit s.sr i b } else s

/-- Write the whole SR; the bits outside `SR_IMPLEMENTED_MASK` are discarded (R30, R35). -/
def writeSr (s : State) (v : Word) : State := { s with sr := mergeBits s.params.srMask v s.sr }

/-- The position of a field of SR (R27). -/
def srPos (l : SrLayout) : SrField → Fin 32
  | .c => l.c | .z => l.z | .n => l.n | .v => l.v | .q => l.q | .l => l.l | .t => l.t | .r => l.r
  | .gm => l.gm | .i0m => l.i0m | .i1m => l.i1m | .i2m => l.i2m | .i3m => l.i3m | .em => l.em
  | .m0 => l.m0 | .m1 => l.m1 | .m2 => l.m2 | .d => l.d | .dm => l.dm | .j => l.j | .h => l.h

/-- `SR[f]` (R11). -/
def srField (s : State) (f : SrField) : Bool := srBit s (srPos s.params.srLayout f)

/-- `SR[f] <- b` (R11). -/
def writeSrField (s : State) (f : SrField) (b : Bool) : State := writeSrBit s (srPos s.params.srLayout f) b

/-- `SR[M2:M0]`, M2 the most significant (R7, R233). -/
def mode (s : State) : BitVec 3 :=
  BitVec.ofBool (srField s .m2) ++ BitVec.ofBool (srField s .m1) ++ BitVec.ofBool (srField s .m0)

/-- Application mode, `SR[M2:M0] = 0b000` (R235). -/
def inApplicationMode (s : State) : Bool := mode s == 0b000#3

/-! ### The system-register and debug-register spaces -/

/-- The named register at a byte address, if `SYSREG_MAP` maps it (R35). -/
def sysRegAt (s : State) (a : RegAddr) : Option SysReg := s.params.sysRegMap.lookup a

/-- `SysRegRead` of a named register (R35). -/
def readSysReg (s : State) : SysReg → Word
  | .sr => readSr s
  | .evba => s.evba
  | .rsrDbg => s.rsrDbg
  | .rarDbg => s.rarDbg
  | .tlbehi => s.tlbehi
  | .tlbelo => s.tlbelo
  | .mmucr => s.mmucr

/-- `SysRegWrite` of a named register (R35). -/
def writeSysReg (s : State) (r : SysReg) (v : Word) : State :=
  match r with
  | .sr => writeSr s v
  | .evba => { s with evba := v }
  | .rsrDbg => { s with rsrDbg := v }
  | .rarDbg => { s with rarDbg := v }
  | .tlbehi => { s with tlbehi := v }
  | .tlbelo => { s with tlbelo := v }
  | .mmucr => { s with mmucr := v }

/-- The register number of a byte address of the debug space (R37). -/
def dbgNumber (a : RegAddr) : Fin 256 := (RegAddr.number a).toFin

/-- `DbgRegRead`: what was last written if `DBG_PLAIN_STORAGE`, else a free value (R38). -/
def readDbg (s : State) (k : Fin 256) : Word :=
  if s.params.dbgPlainStorage then s.dbg[k] else Config.freeDebug k s.draws

/-- `DbgRegWrite` (R38). -/
def writeDbg (s : State) (k : Fin 256) (v : Word) : State := { s with dbg := s.dbg.set k v }

/-- `OcdEnabled(dbg, env)`, evaluated on the debug registers as they are now (R50). -/
def ocdEnabled (s : State) : Bool :=
  evalBool
    (fun
      | .dbgBit k bit => s.dbg[k].getLsbD bit
      | .environment => Config.ocdEnvironment s.dbg s.draws)
    s.params.ocdEnabled

/-! ### Main memory -/

/-- The byte at an address, if the memory holds one (R71, R264 case c). -/
def readByte (m : Memory) (a : Nat) : Option Byte := m.lookup a

/-- The memory with the byte at an address replaced or added, addresses kept rising. -/
def writeByte (m : Memory) (a : Nat) (b : Byte) : Memory :=
  match m with
  | [] => [(a, b)]
  | c :: rest => if a < c.1 then (a, b) :: c :: rest else if a = c.1 then (a, b) :: rest else c :: writeByte rest a b

/-- The canonical form of a memory: addresses strictly rising, every one below 2^32. -/
def Memory.wf (m : Memory) : Bool :=
  match m with
  | [] => true
  | [c] => c.1 < 2 ^ 32
  | c :: d :: rest => c.1 < d.1 && Memory.wf (d :: rest)

/-- The bytes at `addr`, `addr + 1`, ... modulo 2^32, if the memory holds them all (R73). -/
def readBytes (m : Memory) (addr : Word) : Nat → Option (List Byte)
  | 0 => some []
  | n + 1 =>
    match readByte m addr.toNat, readBytes m (addr + 1) n with
    | some b, some bs => some (b :: bs)
    | _, _ => none

/-- Store bytes at `addr`, `addr + 1`, ... modulo 2^32 (R73). -/
def writeBytes (m : Memory) (addr : Word) : List Byte → Memory
  | [] => m
  | b :: bs => writeBytes (writeByte m addr.toNat b) (addr + 1) bs

/-- The value of bytes in the order of rule R74: the first is the most significant when big-endian. -/
def valueOfBytes (bigEndian : Bool) (bs : List Byte) : Nat :=
  (if bigEndian then bs else bs.reverse).foldl (fun acc b => acc * 256 + b.toNat) 0

/-- The `n` bytes of a value, least significant first. -/
def littleBytes (v : Nat) : Nat → List Byte
  | 0 => []
  | n + 1 => BitVec.ofNat 8 v :: littleBytes (v / 256) n

/-- `MemRead(addr, n)`, in the byte order of the parameters (R73, R74). -/
def memRead (s : State) (addr : Word) (n : Nat) : Option Nat :=
  (readBytes s.mem addr n).map (valueOfBytes s.params.bigEndian)

/-- `MemWrite(addr, n, v)`, in the byte order of the parameters (R73, R74); no instruction in scope calls it (R196). -/
def memWrite (s : State) (addr : Word) (n : Nat) (v : Nat) : State :=
  let le := littleBytes v n
  { s with mem := writeBytes s.mem addr (if s.params.bigEndian then le.reverse else le) }

/-! ### The TLBs -/

/-- `TLBEHI[I] = 1`: the instruction TLB is selected (R40). -/
def itlbSelected (s : State) : Bool := getField s.params.mmuLayout.itlb s.tlbehi == 1

/-- The pointer of the selected TLB, `MMUCR[IRP]` or `MMUCR[DRP]` (R42). -/
def tlbPointerField (s : State) : BitField :=
  if itlbSelected s then s.params.mmuLayout.irp else s.params.mmuLayout.drp

/-- The index of the addressed entry (R191, R194). -/
def tlbIndex (s : State) : Nat := getField (tlbPointerField s) s.mmucr

/-- The selected TLB; its length is `ITLB_ENTRIES` or `DTLB_ENTRIES` (R44, R191, R192, R194). -/
def selectedTlb (s : State) : List TlbEntry := if itlbSelected s then s.itlb else s.dtlb

/-- The addressed entry, if the pointer is below the number of entries (R44, R191). -/
def addressedEntry (s : State) : Option TlbEntry := (selectedTlb s)[tlbIndex s]?

/-- The selected TLB with an entry replaced (R194). -/
def writeSelectedTlb (s : State) (i : Nat) (e : TlbEntry) : State :=
  if itlbSelected s then { s with itlb := s.itlb.set i e } else { s with dtlb := s.dtlb.set i e }

/-- `VmmShared(MMUCR)` (R45). -/
def vmmShared (p : Params) (mmucr : Word) : Bool := evalBool (fun i : Fin 32 => mmucr.getLsbD i) p.vmmShared

/-- `MmuEnabled(v)` (R80). -/
def mmuEnabled (p : Params) (v : Word) : Bool := evalBool (fun i : Fin 32 => v.getLsbD i) p.mmuEnabled

/-! ### Sleep and synchronisation -/

/-- `SleepMode(op8)` (R6, R184). -/
def sleepModeOf (p : Params) (op : BitVec 8) : BitVec 8 :=
  BitVec.ofNat 8 (p.sleepMode.foldr (fun e acc => 2 * acc + (evalBool (fun i : Fin 8 => op.getLsbD i) e).toNat) 0)

/-- `WakeEvent(m, env)`: the event ends a sleep in mode `m` (R185). -/
def endsSleep (s : State) (m : BitVec 8) (e : AsyncEvent) : Bool :=
  evalBool
    (fun
      | .modeBit i => m.getLsbD i
      | .event e' => e' == e
      | .environment => Config.wakeEnvironment m s.draws)
    s.params.wakeEvent

/-- `SyncOp(op8)` completes the access (R83, R190). -/
def syncCompletes (p : Params) (op : BitVec 8) (a : MemAccess) : Bool :=
  evalBool (fun i : Fin 8 => op.getLsbD i) (if a.isStore then p.syncOp.stores else p.syncOp.loads)

/-- `SyncOp(op8)` empties the write buffers (R83, R190). -/
def syncDrains (p : Params) (op : BitVec 8) : Bool :=
  evalBool (fun i : Fin 8 => op.getLsbD i) p.syncOp.writeBuffers

/-- Finish the accesses of the core that `SyncOp(op8)` covers: by default all of them, and the write buffers (R190). -/
def completeAccesses (s : State) (op : BitVec 8) : State :=
  { s with
    pending := s.pending.filter fun a => !syncCompletes s.params op a
    writeBuffers := if syncDrains s.params op then [] else s.writeBuffers }

/-! ### The breakpoint trap -/

/-- The address the trap saves, "address of first non-completed instruction" (R142). -/
def breakpointReturnAddress (s : State) : Word :=
  match s.params.bkptRarOffset with
  | .zero => s.pc
  | .two => s.pc + 2
  | .unfixed => if Config.freeRarNext s.draws then s.pc + 2 else s.pc

/-- Taking the breakpoint trap, the only exception the spec describes (R141, R227).
SR is read once, before any field changes (R141 corner case f).
DESIGN CHOICE (log 13, safe): the copy reads its bits outside `SR_IMPLEMENTED_MASK` at a draw of its own. -/
def takeBreakpoint (s : State) : State :=
  let saved := { redrawn s with rsrDbg := readSr (redrawn s), rarDbg := breakpointReturnAddress s }
  let s1 := writeSrField saved .r s.params.bkptR
  let s2 := writeSrField s1 .j s.params.bkptJ
  let s3 := writeSrField s2 .d true
  let s4 := writeSrField s3 .m2 true
  let s5 := writeSrField s4 .m1 true
  let s6 := writeSrField s5 .m0 false
  let s7 := writeSrField s6 .dm true
  let s8 := writeSrField s7 .em true
  let s9 := writeSrField s8 .gm true
  { s9 with pc := s.evba + 0x1C }

end Sys2Proof.Machine
end

