-- ==== Sys2Proof/Machine/Issue.lean ====
section
/-! DEFINITION. What every instruction goes through before its own effect (R140, steps 2 to 5): the check of register
operand 15, the privilege check, the hazard check, and the ageing of the hazard windows. -/
namespace Sys2Proof.Machine

/-! ### Register operand 15 -/

/-- The register operands of an instruction, d, s or p (R20). -/
def regOperands : Instr → List Reg
  | .cache p _ _ => [p]
  | .mfdr d _ => [d]
  | .mfsr d _ => [d]
  | .mtdr _ s => [s]
  | .mtsr _ s => [s]
  | .musfr s => [s]
  | .mustr d => [d]
  | .pref p _ => [p]
  | .srCond _ d => [d]
  | .breakpoint | .csrf _ | .csrfcz _ | .frs | .nop | .sleep _ | .ssrf _ | .sync _ | .tlbr | .tlbs | .tlbw => []

/-- Step 2 of R140: `R15_ALIASES_PC` holds and a register operand is 15 (R22). -/
def usesAliasedPc (p : Params) (i : Instr) : Bool := p.r15AliasesPc && (regOperands i).contains 15

/-! ### Privilege -/

/-- The class of an instruction with its operand values, as `PRIV_SET` names it (R235). -/
def privClass : Instr → PrivClass
  | .breakpoint => .breakpoint
  | .cache _ _ _ => .cache
  | .csrf bp => if bp.val < 16 then .csrfLow else .csrfHigh
  | .csrfcz _ => .csrfcz
  | .frs => .frs
  | .mfdr _ _ => .mfdr
  | .mfsr _ _ => .mfsr
  | .mtdr _ _ => .mtdr
  | .mtsr _ _ => .mtsr
  | .musfr _ => .musfr
  | .mustr _ => .mustr
  | .nop => .nop
  | .pref _ _ => .pref
  | .sleep _ => .sleep
  | .srCond _ _ => .srCond
  | .ssrf bp => if bp.val < 16 then .ssrfLow else .ssrfHigh
  | .sync _ => .sync
  | .tlbr => .tlbr
  | .tlbs => .tlbs
  | .tlbw => .tlbw

/-- The instruction, with its operand values, is in `PRIV_SET` (R235). -/
def privileged (p : Params) (i : Instr) : Bool := p.privSet.contains (privClass i)

/-! ### Hazards -/

/-- The instruction depends on SR in the sense of R266.
DEDUCED (log 10, safe): R266 lists the fetch check on SR[J], which every instruction meets, and R181 exempts NOP. -/
def dependsOnSr : Instr → Bool
  | .nop => false
  | .breakpoint | .cache _ _ _ | .csrf _ | .csrfcz _ | .frs | .mfdr _ _ | .mfsr _ _ | .mtdr _ _ | .mtsr _ _ | .musfr _
  | .mustr _ | .pref _ _ | .sleep _ | .srCond _ _ | .ssrf _ | .sync _ | .tlbr | .tlbs | .tlbw => true

/-- The instruction is BREAKPOINT. -/
def isBreakpoint (i : Instr) : Bool := i == .breakpoint

/-- The instruction is one of TLBR, TLBS, TLBW. -/
def isTlbInstr (i : Instr) : Bool := i == .tlbr || i == .tlbs || i == .tlbw

/-- The instruction reads the register with MFSR or MFDR at its address (R266). -/
def readsBack (p : Params) (i : Instr) (t : HazardTarget) : Bool :=
  match i, t with
  | .mfsr _ a, .sys r => p.sysRegMap.lookup a == some r
  | .mfdr _ a, .dbg k => dbgNumber a == k
  | _, _ => false

/-- The instruction depends on a register that an MTSR or MTDR wrote (R266). -/
def dependsOn (p : Params) (i : Instr) (t : HazardTarget) : Bool :=
  readsBack p i t ||
    match t with
    | .sys .sr => dependsOnSr i
    | .sys .evba => isBreakpoint i
    | .sys .tlbehi => isTlbInstr i
    | .sys .tlbelo => isTlbInstr i
    | .sys .mmucr => isTlbInstr i
    | .sys .rsrDbg => false
    | .sys .rarDbg => false
    | .dbg _ => isBreakpoint i

/-- Step 4 of R140: the instruction depends on a register written fewer than `SYSREG_HAZARD_WINDOW` instructions ago. -/
def hazard (s : State) (i : Instr) : Bool :=
  s.windows.any fun w => decide (0 < w.left) && dependsOn s.params i w.target

/-- The windows after one more instruction: each covers one instruction less, and a window that covers none is closed (R268). -/
def ageWindows (ws : List HazardWindow) : List HazardWindow :=
  (ws.map fun w => { w with left := w.left - 1 }).filter fun w => decide (0 < w.left)

/-- Open the window of a register that MTSR or MTDR has just written (R266). -/
def openWindow (s : State) (t : HazardTarget) : State :=
  if s.params.hazardWindow = 0 then s else { s with windows := ⟨t, s.params.hazardWindow⟩ :: s.windows }

/-! ### Issue -/

/-- The checks before an instruction's own effect, in the order of R140; `none` when it may execute. -/
def check (i : Instr) (s : State) : Option Refusal :=
  if i.wellFormed = false then some .operandOutsideItsSet
  else if usesAliasedPc s.params i then some .registerOperand15
  else if privileged s.params i && inApplicationMode s then some .privilegedInApplicationMode
  else if hazard s i then some .systemRegisterHazard
  else none

/-- The state an instruction's own effect starts from: the windows are one instruction older, and the free values are fresh. -/
def issued (s : State) : State := { s with windows := ageWindows s.windows, draws := s.draws + 1 }

/-- Execute an instruction: the checks, then its effect (R140, steps 2 to 6). -/
def issue (i : Instr) (s : State) (effect : State → Host.Outcome State Fault Refusal) : Host.Outcome State Fault Refusal :=
  match check i s with
  | some r => .refused r
  | none => effect (issued s)

/-- Complete an instruction whose effect did not assign pc: `pc <- pc + ilen` (R24, R140 step 6), the length
being the table's (R6). -/
def complete (i : Instr) (s : State) : Host.Outcome State Fault Refusal := .next (advance s (i.ilen s.params.encoding))

end Sys2Proof.Machine
end

