-- ==== Sys2Proof/Machine/Operands.lean ====
section
/-! DEFINITION. The operand forms: the indexed address `Rp[disp]` (R120), the fields of Op5 (R143), the address TLBS
searches for and the match of a TLB entry (R79, R192). -/
namespace Sys2Proof.Machine

/-- `Rp[disp]`: `x[p] + sext_32(disp)`, modulo 2^32, the displacement not scaled (R120, R10). -/
def indexedAddress {n : Nat} (s : State) (p : Reg) (disp : BitVec n) : Word := readReg s p + sext32 disp

/-- Op[4:3] of CACHE, the cache selector (R86). -/
def cacheSelector (op : BitVec 5) : BitVec 2 := op.extractLsb' 3 2

/-- Op[2:0] of CACHE, the command (R86). -/
def cacheCommandCode (op : BitVec 5) : BitVec 3 := op.extractLsb' 0 3

/-- The address a VPN field stands for: `VPN << 10` (R79, R192). -/
def vpnAddress (p : Params) (hi : Word) : Word := BitVec.ofNat 32 (getField p.mmuLayout.vpn hi) <<< 10

/-- `log2(PAGE_SIZE(SZ))` (R79). A size the table does not list, which the two-bit default field cannot hold, counts as the smallest. -/
def pageShift (p : Params) (lo : Word) : Nat := p.pageShift.getD (getField p.mmuLayout.size lo) 10

/-- `Compare(VPN, VA, SZ, V)` of an entry (R79): it is valid, and agrees with VA on every bit above the page offset. -/
def compareEntry (p : Params) (e : TlbEntry) (va : Word) : Bool :=
  getField p.mmuLayout.valid e.hi == 1 && (vpnAddress p e.hi >>> pageShift p e.lo == va >>> pageShift p e.lo)

/-- The entry matches the search key TLBEHI under the given MMUCR (R79, R192):
the page compares, and the mode is SharedVMM or the entry is global or carries TLBEHI's ASID. -/
def entryMatches (p : Params) (key mmucr : Word) (e : TlbEntry) : Bool :=
  compareEntry p e (vpnAddress p key) &&
    (vmmShared p mmucr || getField p.mmuLayout.global e.lo == 1 ||
      getField p.mmuLayout.asid e.hi == getField p.mmuLayout.asid key)

end Sys2Proof.Machine
end

