-- ==== Sys2Proof/Machine/CacheAndSync.lean ====
section
/-! DEFINITION. The instructions on hidden state: CACHE, FRS, PREF, SYNC; and NOP. -/
namespace Sys2Proof.Machine

/-- CACHE: issue a command to a cache (R143).
Under `CACHE_POLICY` nop it changes the hidden cache state only, by the free `CacheCommand`; under refuse it is refused. -/
def execCache (p : Reg) (disp : BitVec 11) (op : BitVec 5) (s : State) : Host.Outcome State Fault Refusal :=
  issue (.cache p disp op) s fun s =>
    match s.params.cachePolicy with
    | .refuse => .refused .cacheCommandIsImplementationDefined
    | .nop =>
      complete (.cache p disp op)
        { s with cache := Config.cacheCommand (cacheSelector op) (cacheCommandCode op) (indexedAddress s p disp) s.cache }

/-- FRS: every entry of the return address stack is invalidated (R146). -/
def execFrs (s : State) : Host.Outcome State Fault Refusal :=
  issue .frs s fun s => complete .frs { s with ras := [] }

/-- NOP (R180). -/
def execNop (s : State) : Host.Outcome State Fault Refusal := issue .nop s fun s => complete .nop s

/-- PREF: only the hidden cache state may change, and no address makes it stop (R182, R183). -/
def execPref (p : Reg) (disp : BitVec 16) (s : State) : Host.Outcome State Fault Refusal :=
  issue (.pref p disp) s fun s =>
    complete (.pref p disp) { s with cache := Config.cachePrefetch (indexedAddress s p disp) s.cache s.draws }

/-- SYNC: by default every pending access has performed and the write buffers are empty, whatever Op8 is (R190, R83; log 23);
an implementation whose `SyncOp` is weaker for this Op8 completes what `SyncOp` says (U5, log 43). -/
def execSync (op : BitVec 8) (s : State) : Host.Outcome State Fault Refusal :=
  issue (.sync op) s fun s => complete (.sync op) (completeAccesses s op)

end Sys2Proof.Machine
end

