-- ==== Sys2Proof/Machine/DebugAndSleep.lean ====
section
/-! DEFINITION. BREAKPOINT and SLEEP. -/
namespace Sys2Proof.Machine

/-- The breakpoint trap is taken: the debug system is enabled and SR[DM] = 0 (R141, C5). -/
def breakpointTraps (s : State) : Bool := ocdEnabled s && !srField s .dm

/-- BREAKPOINT: the trap, or a NOP (R141). -/
def execBreakpoint (s : State) : Host.Outcome State Fault Refusal :=
  issue .breakpoint s fun s =>
    .next (if breakpointTraps s then takeBreakpoint s else advance s (Instr.breakpoint.ilen s.params.encoding))

/-- SLEEP: GM is cleared when Op8[7] = 1, pc advances, and the core is asleep in mode Op8 (R184). -/
def execSleep (op : BitVec 8) (s : State) : Host.Outcome State Fault Refusal :=
  issue (.sleep op) s fun s =>
    let unmasked := if op.getLsbD 7 then writeSrField s .gm false else s
    complete (.sleep op) { unmasked with sleep := some op }

end Sys2Proof.Machine
end

