-- ==== Sys2Proof/Machine/RegisterMoves.lean ====
section
/-! DEFINITION. The moves between a general register and a system or debug register: MFDR, MFSR, MTDR, MTSR. -/
namespace Sys2Proof.Machine

/-- MFDR: `x[d] <- DbgRegRead(a)` (R147). -/
def execMfdr (d : Reg) (a : RegAddr) (s : State) : Host.Outcome State Fault Refusal :=
  issue (.mfdr d a) s fun s => complete (.mfdr d a) (writeReg s d (readDbg s (dbgNumber a)))

/-- MFSR: `x[d] <- SysRegRead(a)`; an unmapped address is refused (R148, R35). -/
def execMfsr (d : Reg) (a : RegAddr) (s : State) : Host.Outcome State Fault Refusal :=
  issue (.mfsr d a) s fun s =>
    match sysRegAt s a with
    | none => .refused .unmappedSystemRegister
    | some r => complete (.mfsr d a) (writeReg s d (readSysReg s r))

/-- MTDR: `DbgRegWrite(a, x[s])` (R149); it opens the hazard window of the debug register (R266). -/
def execMtdr (a : RegAddr) (r : Reg) (s : State) : Host.Outcome State Fault Refusal :=
  issue (.mtdr a r) s fun s =>
    complete (.mtdr a r) (openWindow (writeDbg s (dbgNumber a) (readReg s r)) (.dbg (dbgNumber a)))

/-- MTSR: `SysRegWrite(a, x[s])` (R150); an unmapped address is refused (R35), and so is a value of MMUCR that turns
translation on (R80). It opens the hazard window of the register (R266). -/
def execMtsr (a : RegAddr) (r : Reg) (s : State) : Host.Outcome State Fault Refusal :=
  issue (.mtsr a r) s fun s =>
    match sysRegAt s a with
    | none => .refused .unmappedSystemRegister
    | some t =>
      if t = .mmucr ∧ mmuEnabled s.params (readReg s r) = true then .refused .mmuEnable
      else complete (.mtsr a r) (openWindow (writeSysReg s t (readReg s r)) (.sys t))

end Sys2Proof.Machine
end

