-- ==== Sys2Proof/Machine/Flags.lean ====
section
/-! DEFINITION. The flag computations: the conditions of R31 and the copies of R145, R151 and R152.
No instruction in scope computes a flag from an arithmetic result (R197). -/
namespace Sys2Proof.Machine

/-- `Cond(cond4, SR)`: the row of `COND_TABLE` at the condition's code, over the fields of SR (R31). -/
def condHolds (s : State) (cond : Cond) : Bool :=
  evalBool (srField s) s.params.condTable[cond.code.toNat]

/-- `SR[C] <- b; SR[Z] <- b` (R145). -/
def copyToCZ (s : State) (b : Bool) : State := writeSrField (writeSrField s .c b) .z b

/-- `SR[3:0] <- v[3:0]`, bit for bit (R28, R151). -/
def writeLowFlags (s : State) (v : Word) : State :=
  let s0 := writeSrBit s 0 (v.getLsbD 0)
  let s1 := writeSrBit s0 1 (v.getLsbD 1)
  let s2 := writeSrBit s1 2 (v.getLsbD 2)
  writeSrBit s2 3 (v.getLsbD 3)

/-- `SR[3:0]` (R28, R152). -/
def lowFlags (s : State) : BitVec 4 :=
  BitVec.ofBool (srBit s 3) ++ BitVec.ofBool (srBit s 2) ++ BitVec.ofBool (srBit s 1) ++ BitVec.ofBool (srBit s 0)

end Sys2Proof.Machine
end

