-- ==== Sys2Proof/Machine/StatusRegister.lean ====
section
/-! DEFINITION. The instructions on SR bits and flags: CSRF, CSRFCZ, MUSFR, MUSTR, SR{cond4}, SSRF. -/
namespace Sys2Proof.Machine

/-- CSRF: `SR[bp] <- 0` (R144). -/
def execCsrf (bp : Fin 32) (s : State) : Host.Outcome State Fault Refusal :=
  issue (.csrf bp) s fun s => complete (.csrf bp) (writeSrBit s bp false)

/-- CSRFCZ: `b <- SR[bp]`, read once, then `SR[C] <- b; SR[Z] <- b` (R145). -/
def execCsrfcz (bp : Fin 32) (s : State) : Host.Outcome State Fault Refusal :=
  issue (.csrfcz bp) s fun s => complete (.csrfcz bp) (copyToCZ s (srBit s bp))

/-- MUSFR: `SR[3:0] <- x[s][3:0]` (R151). -/
def execMusfr (r : Reg) (s : State) : Host.Outcome State Fault Refusal :=
  issue (.musfr r) s fun s => complete (.musfr r) (writeLowFlags s (readReg s r))

/-- MUSTR: `x[d] <- zext_32(SR[3:0])` (R152). -/
def execMustr (d : Reg) (s : State) : Host.Outcome State Fault Refusal :=
  issue (.mustr d) s fun s => complete (.mustr d) (writeReg s d (zext32 (lowFlags s)))

/-- SR{cond4}: `x[d] <- 1` if the condition holds, else `x[d] <- 0` (R186). -/
def execSrCond (cond : Cond) (d : Reg) (s : State) : Host.Outcome State Fault Refusal :=
  issue (.srCond cond d) s fun s => complete (.srCond cond d) (writeReg s d (if condHolds s cond then 1 else 0))

/-- SSRF: `SR[bp] <- 1` (R188). -/
def execSsrf (bp : Fin 32) (s : State) : Host.Outcome State Fault Refusal :=
  issue (.ssrf bp) s fun s => complete (.ssrf bp) (writeSrBit s bp true)

end Sys2Proof.Machine
end

