-- ==== Sys2Proof/Machine/Tlb.lean ====
section
/-! DEFINITION. The TLB instructions: TLBR, TLBS, TLBW. -/
namespace Sys2Proof.Machine

/-- TLBR: `{TLBEHI, TLBELO} <-` the addressed entry, the selector read before TLBEHI is overwritten (R191). -/
def execTlbr (s : State) : Host.Outcome State Fault Refusal :=
  issue .tlbr s fun s =>
    match addressedEntry s with
    | none => .refused .tlbIndexOutOfRange
    | some e => complete .tlbr { s with tlbehi := e.hi, tlbelo := e.lo }

/-- What the loop of TLBS carries: MMUCR, whose N bit it clears, and the pointer once one is found (R192). -/
structure TlbSearch where
  mmucr : Word
  ptr : Option Nat
deriving DecidableEq, Repr

/-- The loop of TLBS over the entries from index `i` up, every entry visited (R192). -/
def searchEntries (p : Params) (key : Word) (acc : TlbSearch) (i : Nat) : List TlbEntry → TlbSearch
  | [] => acc
  | e :: es =>
    let acc' := if entryMatches p key acc.mmucr e then ⟨setField p.mmuLayout.notFound 0 acc.mmucr, some i⟩ else acc
    searchEntries p key acc' (i + 1) es

/-- MMUCR after TLBS: N set first and cleared at each match, then the pointer field written (R192).
On no match the pointer is a free value (R193 case b). -/
def searchedMmucr (s : State) : Word :=
  let p := s.params
  let found := searchEntries p s.tlbehi ⟨setField p.mmuLayout.notFound 1 s.mmucr, none⟩ 0 (selectedTlb s)
  setField (tlbPointerField s) (found.ptr.getD (Config.freePointer s.draws)) found.mmucr

/-- TLBS: search the selected TLB for TLBEHI (R192). -/
def execTlbs (s : State) : Host.Outcome State Fault Refusal :=
  issue .tlbs s fun s => complete .tlbs { s with mmucr := searchedMmucr s }

/-- TLBW: the addressed entry `<- {TLBEHI, TLBELO}` (R194). -/
def execTlbw (s : State) : Host.Outcome State Fault Refusal :=
  issue .tlbw s fun s =>
    match addressedEntry s with
    | none => .refused .tlbIndexOutOfRange
    | some _ => complete .tlbw (writeSelectedTlb s (tlbIndex s) ⟨s.tlbehi, s.tlbelo⟩)

end Sys2Proof.Machine
end

