-- ==== Sys2Proof/Machine/Dispatch.lean ====
section
/-! DEFINITION. The dispatch: one arm per constructor of Instr, each a direct call of the instruction's meaning. -/
namespace Sys2Proof.Machine

def exec (i : Instr) (s : State) : Host.Outcome State Fault Refusal :=
  match i with
  | .breakpoint => Sys2Proof.Machine.execBreakpoint s
  | .cache p disp op => Sys2Proof.Machine.execCache p disp op s
  | .csrf bp => Sys2Proof.Machine.execCsrf bp s
  | .csrfcz bp => Sys2Proof.Machine.execCsrfcz bp s
  | .frs => Sys2Proof.Machine.execFrs s
  | .mfdr d a => Sys2Proof.Machine.execMfdr d a s
  | .mfsr d a => Sys2Proof.Machine.execMfsr d a s
  | .mtdr a r => Sys2Proof.Machine.execMtdr a r s
  | .mtsr a r => Sys2Proof.Machine.execMtsr a r s
  | .musfr r => Sys2Proof.Machine.execMusfr r s
  | .mustr d => Sys2Proof.Machine.execMustr d s
  | .nop => Sys2Proof.Machine.execNop s
  | .pref p disp => Sys2Proof.Machine.execPref p disp s
  | .sleep op => Sys2Proof.Machine.execSleep op s
  | .srCond cond d => Sys2Proof.Machine.execSrCond cond d s
  | .ssrf bp => Sys2Proof.Machine.execSsrf bp s
  | .sync op => Sys2Proof.Machine.execSync op s
  | .tlbr => Sys2Proof.Machine.execTlbr s
  | .tlbs => Sys2Proof.Machine.execTlbs s
  | .tlbw => Sys2Proof.Machine.execTlbw s

end Sys2Proof.Machine
end

