-- ==== Sys2Proof/Machine/Fetch.lean ====
section
/-! DEFINITION. What a step does before an instruction executes: the hold of a sleeping core and the events of the
environment (R185, R226), then fetch and decode (R101, R112). -/
namespace Sys2Proof.Machine

/-! ### Sleep and asynchronous events -/

/-- A mask of SR shuts the event out: an interrupt by SR[GM] = 1 (R225), a debug request by SR[DM] = 1 (R29).
It names the refusal and does no more: the premise NoAsyncEvents fails either way (R226).
DESIGN CHOICE (log 24, safe): the masks are SR's as the preceding instruction left it, at once (R267 leaves open when a change of
GM or DM takes effect), and a mask outside `SR_IMPLEMENTED_MASK` reads at a draw of its own (log 13). -/
def eventMasked (s : State) : AsyncEvent → Bool
  | .interrupt => srField (redrawn s) .gm
  | .debugRequest => srField (redrawn s) .dm
  | .nmi => false
  | .reset => false
  | .wake => false

/-- Why a step that meets an event has no meaning (R226): it would end the sleep (R185), or a mask shuts it out, or the core
would take it; the spec has no step for any of them. -/
def eventRefusal (s : State) (e : AsyncEvent) : Refusal :=
  match s.sleep with
  | some op => if endsSleep s (sleepModeOf s.params op) e then .wakeEvent (sleepModeOf s.params op) e else byMask
  | none => byMask
where
  byMask : Refusal := if eventMasked s e then .maskedEvent e else .asyncEvent e

/-- What the step does instead of fetching an instruction, if anything.
An event of the environment makes it refused (R226); a sleeping core with no event is held (R185). -/
def beforeFetch (s : State) : Option (Host.Outcome State Fault Refusal) :=
  match s.events, s.sleep with
  | e :: _, _ => some (.refused (eventRefusal s e))
  | [], some _ => some (.next s)
  | [], none => none

/-! ### Fetch and decode -/

/-- What fetching gives. -/
inductive Fetched where
  | instr (i : Instr)
  | stuck (f : Fault)
  | refused (r : Refusal)
deriving DecidableEq, Repr

/-- The state after the fetch: a memory access may change the hidden cache state (R47), and the free values are fresh.
The fetch's own check of SR[J] used the draw before (log 13). -/
def afterFetch (s : State) : State :=
  { s with cache := Config.cacheFetch s.pc s.cache s.draws, draws := s.draws + 2 }

/-- What the decoder's answer makes of the fetch: a word that is none of the 20 instructions is refused (R113). -/
def ofDecoder : Except DecodeError Instr → Fetched
  | .ok i => .instr i
  | .error e => .refused (.notOneOfThe20 e)

/-- Read the instruction at pc: one halfword, and a second when the first is an extended instruction's (R101). -/
def fetchWords (s : State) : Fetched :=
  match memRead s s.pc 2 with
  | none => .stuck (.stuckFetch s.pc)
  | some n0 =>
    let h0 : Half := BitVec.ofNat 16 n0
    if isExtended s.params.encoding h0 then
      match memRead s (s.pc + 2) 2 with
      | none => .stuck (.stuckFetch (s.pc + 2))
      | some n1 => ofDecoder (decodeExtended s.params.encoding (h0 ++ BitVec.ofNat 16 n1))
    else ofDecoder (decodeCompact s.params.encoding h0)

/-- Fetch and decode the instruction at pc (R101): an odd pc is refused (R25), SR[J] = 1 is refused (R101), and so is a
fetch with translation on (the model's own check of the premise MMUDisabled, R80; log 26).
DESIGN CHOICE (log 13, safe): should `SR_LAYOUT` put J outside `SR_IMPLEMENTED_MASK`, the check reads a draw of its own, shared with
no instruction's read of SR. -/
def fetch (s : State) : Fetched :=
  if s.pc.getLsbD 0 then .refused .misalignedPc
  else if srField (redrawn s) .j then .refused .javaState
  else if mmuEnabled s.params s.mmucr then .refused .translationEnabled
  else fetchWords s

/-- The state with bytes stored where the next instruction is fetched. -/
def placeAtPc (s : State) (bs : List Byte) : State := { s with mem := writeBytes s.mem s.pc bs }

end Sys2Proof.Machine
end

