-- ==== Sys2Proof/Machine/Step.lean ====
section
/-! DEFINITION. One step of the core (R140): the hold and the events, the fetch, then the instruction. -/
namespace Sys2Proof.Machine

/-- One step of the core (R140). -/
def step (s : State) : Host.Outcome State Fault Refusal :=
  match beforeFetch s with
  | some o => o
  | none =>
    match fetch s with
    | .instr i => exec i (afterFetch s)
    | .stuck f => .fault f
    | .refused r => .refused r

/-- The state with an instruction, given as a word numbered as the opcode table numbers it, stored where the next step
fetches (log 4: it stands for the load of a program from outside). -/
def State.withFetchWord (s : State) (nbits w : Nat) : State := placeAtPc s (tableBytes s.params.bigEndian nbits w)

end Sys2Proof.Machine
end

