-- ==== Sys2Proof/Safety.lean ====
section
/-! DEFINITION. The terms the claims are stated in: when an instruction may execute, what a step keeps, and the invariant. -/
namespace Sys2Proof.Machine

/-- The instruction may execute in the state: none of the checks of R140 (steps 2 to 4) applies, and its operands are in
their sets. -/
abbrev Ready (i : Instr) (s : State) : Prop :=
  i.WellFormed ∧
  (s.params.r15AliasesPc = true → (15 : Reg) ∉ regOperands i) ∧
  (privClass i ∈ s.params.privSet → mode s ≠ 0b000#3) ∧
  (∀ w ∈ s.windows, 0 < w.left → dependsOn s.params i w.target = false)

/-- The parts of the state a frame speaks of: all of State but the model's own counter of draws. -/
inductive Part where
  | params | x | pc | sr | evba | rsrDbg | rarDbg | tlbehi | tlbelo | mmucr | itlb | dtlb | dbg | ras | cache | pending
  | writeBuffers | sleep | events | mem | windows
deriving DecidableEq, Repr

/-- A part of the state is as before.
General registers, debug registers and SR are compared one by one, memory one byte at a time; the hazard windows are kept
when they are the old ones, one instruction older. -/
def Kept (s t : State) : Part → Prop
  | .params => t.params = s.params
  | .x => ∀ r : Reg, readReg t r = readReg s r
  | .pc => t.pc = s.pc
  | .sr => ∀ i : Fin 32, t.sr.getLsbD i = s.sr.getLsbD i
  | .evba => t.evba = s.evba
  | .rsrDbg => t.rsrDbg = s.rsrDbg
  | .rarDbg => t.rarDbg = s.rarDbg
  | .tlbehi => t.tlbehi = s.tlbehi
  | .tlbelo => t.tlbelo = s.tlbelo
  | .mmucr => t.mmucr = s.mmucr
  | .itlb => t.itlb = s.itlb
  | .dtlb => t.dtlb = s.dtlb
  | .dbg => ∀ k : Fin 256, t.dbg[k] = s.dbg[k]
  | .ras => t.ras = s.ras
  | .cache => t.cache = s.cache
  | .pending => t.pending = s.pending
  | .writeBuffers => t.writeBuffers = s.writeBuffers
  | .sleep => t.sleep = s.sleep
  | .events => t.events = s.events
  | .mem => ∀ a : Nat, readByte t.mem a = readByte s.mem a
  | .windows => t.windows = ageWindows s.windows

/-- Every part of the state outside the list is as before. -/
def KeptAllBut (parts : List Part) (s t : State) : Prop := ∀ p : Part, p ∉ parts → Kept s t p

/-- Every general register but `d` is as before. -/
def OtherRegsKept (d : Reg) (s t : State) : Prop := ∀ r : Reg, r ≠ d → readReg t r = readReg s r

/-- The bit of SR holds state (R30). -/
abbrev Implemented (p : Params) (i : Fin 32) : Prop := p.srMask.getLsbD i = true

/-- The fields of SR a taken BREAKPOINT writes (R141). -/
def trapFields : List SrField := [.r, .j, .d, .m2, .m1, .m0, .dm, .em, .gm]

/-- The fields a taken BREAKPOINT writes stand at nine different bits of SR that hold state, as the table of R27 has them. -/
abbrev TrapFieldsApart (p : Params) : Prop :=
  (trapFields.map (srPos p.srLayout)).Nodup ∧ ∀ f ∈ trapFields, Implemented p (srPos p.srLayout f)

/-- pc has moved to the following instruction (R24): by the length the table gives the instruction, which under the default table
is `n`, as the pseudocode of the instruction's rule has it. -/
def PcMovesOn (i : Instr) (n : Nat) (s t : State) : Prop :=
  t.pc = s.pc + BitVec.ofNat 32 (i.ilen s.params.encoding) ∧
    (s.params.encoding = defaultEncoding → t.pc = s.pc + BitVec.ofNat 32 n)

/-- R6's bound: "at most 64 each if the default `MMU_LAYOUT` is used", whose IRP and DRP are 6 bits wide (R42). -/
abbrev TlbEntriesAdmitted (p : Params) : Prop :=
  p.mmuLayout = defaultMmuLayout → p.itlbEntries ≤ 64 ∧ p.dtlbEntries ≤ 64

/-- `n` NOPs one after the other (R268); `none` if one of them does not execute. -/
def nops : Nat → State → Option State
  | 0, s => some s
  | n + 1, s =>
    match exec .nop s with
    | .next t => nops n t
    | .fault _ => none
    | .refused _ => none

/-- The core is running: it is not asleep (R49), and the environment has raised no event (NoAsyncEvents, R226). -/
abbrev Running (s : State) : Prop := s.sleep = none ∧ s.events = []

/-- The core may fetch at pc: pc is even (R25), SR[J] = 0 at the fetch's own draw (R101) and translation is off (R80). -/
abbrev MayFetch (s : State) : Prop :=
  s.pc.getLsbD 0 = false ∧ srField (redrawn s) .j = false ∧ mmuEnabled s.params s.mmucr = false

/-- "Depends on the register written" as R266 lists it, without the model's `dependsOn`.
Of SR the list names each reader (CSRFCZ, MUSTR, SR{cond4}, BREAKPOINT, CSRF, SSRF, SLEEP with Op8[7] = 1, MFSR of its address),
the privilege check and the fetch check on SR[J]; every instruction meets the last, and R181 exempts NOP (log 10). -/
def DependsByR266 (p : Params) (t : HazardTarget) (i : Instr) : Prop :=
  match t with
  | .sys .sr => i ≠ .nop
  | .sys .evba => i = .breakpoint ∨ ∃ d a, i = .mfsr d a ∧ p.sysRegMap.lookup a = some .evba
  | .sys .rsrDbg => ∃ d a, i = .mfsr d a ∧ p.sysRegMap.lookup a = some .rsrDbg
  | .sys .rarDbg => ∃ d a, i = .mfsr d a ∧ p.sysRegMap.lookup a = some .rarDbg
  | .sys .tlbehi => i = .tlbr ∨ i = .tlbs ∨ i = .tlbw ∨ ∃ d a, i = .mfsr d a ∧ p.sysRegMap.lookup a = some .tlbehi
  | .sys .tlbelo => i = .tlbr ∨ i = .tlbs ∨ i = .tlbw ∨ ∃ d a, i = .mfsr d a ∧ p.sysRegMap.lookup a = some .tlbelo
  | .sys .mmucr => i = .tlbr ∨ i = .tlbs ∨ i = .tlbw ∨ ∃ d a, i = .mfsr d a ∧ p.sysRegMap.lookup a = some .mmucr
  | .dbg k => i = .breakpoint ∨ ∃ d a, i = .mfdr d a ∧ RegAddr.number a = BitVec.ofFin (w := 8) k

/-- The invariant of the machine: memory is in canonical form, SR holds nothing outside its mask (R30), each TLB has the
number of entries its parameter says (R44), one that R6 admits, and every open hazard window covers at least one and at most
`SYSREG_HAZARD_WINDOW` instructions (R266). -/
structure Inv (s : State) : Prop where
  memory : Memory.wf s.mem = true
  statusRegister : s.sr &&& ~~~s.params.srMask = 0
  itlbEntries : s.itlb.length = s.params.itlbEntries
  dtlbEntries : s.dtlb.length = s.params.dtlbEntries
  tlbBound : TlbEntriesAdmitted s.params
  windows : ∀ w ∈ s.windows, 0 < w.left ∧ w.left ≤ s.params.hazardWindow

end Sys2Proof.Machine
end

