-- ==== Sys2Proof/Certificates/Slice0/Obligations.lean ====
section
/-! DEFINITION. The statements about the model, one definition each; OBLIGATIONS.json lists them.
A statement holds for every value of the parameters of R6 unless it names one.
Where a statement reads a value at `issued s`, it is the state an instruction's effect starts from: `s` with the hazard
windows one instruction older and the counter of draws advanced, so that only free values can differ.
`PcMovesOn i n s t` says that pc moved by the length the table of `s` gives `i`, which is `n` under the default table (R6, R24). -/
open Sys2Proof Sys2Proof.Machine

/-! ### SR bits and flags -/

/-- CSRF (R144): it completes; the addressed bit is 0, a bit that holds no state is not written (R30), nothing else changes. -/
def Obligations.CsrfClearsTheAddressedBit : Prop :=
  ∀ (bp : Fin 32) (s : State), Ready (.csrf bp) s →
    ∃ t, exec (.csrf bp) s = .next t ∧ PcMovesOn (.csrf bp) 2 s t ∧ KeptAllBut [.pc, .sr] s t ∧
      (∀ i : Fin 32, i ≠ bp → t.sr.getLsbD i = s.sr.getLsbD i) ∧
      (Implemented s.params bp → t.sr.getLsbD bp = false) ∧
      (¬ Implemented s.params bp → t.sr.getLsbD bp = s.sr.getLsbD bp)

/-- SSRF (R188): it completes; the addressed bit is 1, a bit that holds no state is not written (R30), nothing else changes. -/
def Obligations.SsrfSetsTheAddressedBit : Prop :=
  ∀ (bp : Fin 32) (s : State), Ready (.ssrf bp) s →
    ∃ t, exec (.ssrf bp) s = .next t ∧ PcMovesOn (.ssrf bp) 2 s t ∧ KeptAllBut [.pc, .sr] s t ∧
      (∀ i : Fin 32, i ≠ bp → t.sr.getLsbD i = s.sr.getLsbD i) ∧
      (Implemented s.params bp → t.sr.getLsbD bp = true) ∧
      (¬ Implemented s.params bp → t.sr.getLsbD bp = s.sr.getLsbD bp)

/-- R189: SSRF then CSRF of one bit that holds state leaves it 0, CSRF then SSRF leaves it 1, and every other bit of SR is
as it was. -/
def Obligations.CsrfAndSsrfAreDuals : Prop :=
  ∀ (bp : Fin 32) (s t u : State), Implemented s.params bp →
    (exec (.ssrf bp) s = .next t → exec (.csrf bp) t = .next u →
      u.sr.getLsbD bp = false ∧ ∀ i : Fin 32, i ≠ bp → u.sr.getLsbD i = s.sr.getLsbD i) ∧
    (exec (.csrf bp) s = .next t → exec (.ssrf bp) t = .next u →
      u.sr.getLsbD bp = true ∧ ∀ i : Fin 32, i ≠ bp → u.sr.getLsbD i = s.sr.getLsbD i)

/-- CSRFCZ (R145): it completes; C and Z become one bit `b`, the addressed bit of SR as it was, or any one bit where the
addressed bit holds no state (corner case c); nothing else changes. -/
def Obligations.CsrfczCopiesTheBitToCAndZ : Prop :=
  ∀ (bp : Fin 32) (s : State), Ready (.csrfcz bp) s →
    ∃ t b, exec (.csrfcz bp) s = .next t ∧ PcMovesOn (.csrfcz bp) 2 s t ∧ KeptAllBut [.pc, .sr] s t ∧
      (Implemented s.params bp → b = s.sr.getLsbD bp) ∧
      (∀ i : Fin 32, i = s.params.srLayout.c ∨ i = s.params.srLayout.z → Implemented s.params i → t.sr.getLsbD i = b) ∧
      (∀ i : Fin 32, (i ≠ s.params.srLayout.c ∧ i ≠ s.params.srLayout.z) ∨ ¬ Implemented s.params i →
        t.sr.getLsbD i = s.sr.getLsbD i)

/-- MUSFR (R151): it completes; bits [3:0] of SR become those of the register, bit for bit, nothing else changes. -/
def Obligations.MusfrCopiesTheLowFlags : Prop :=
  ∀ (r : Reg) (s : State), Ready (.musfr r) s →
    ∃ t, exec (.musfr r) s = .next t ∧ PcMovesOn (.musfr r) 2 s t ∧ KeptAllBut [.pc, .sr] s t ∧
      (∀ i : Fin 32, i.val < 4 → Implemented s.params i → t.sr.getLsbD i = (readReg s r).getLsbD i) ∧
      (∀ i : Fin 32, 4 ≤ i.val ∨ ¬ Implemented s.params i → t.sr.getLsbD i = s.sr.getLsbD i)

/-- MUSTR (R152): it completes; the destination is SR[3:0] zero-extended, nothing else changes. -/
def Obligations.MustrReadsTheLowFlags : Prop :=
  ∀ (d : Reg) (s : State), Ready (.mustr d) s →
    ∃ t, exec (.mustr d) s = .next t ∧ PcMovesOn (.mustr d) 2 s t ∧ KeptAllBut [.pc, .x] s t ∧ OtherRegsKept d s t ∧
      (∀ i : Fin 32, i.val < 4 → Implemented s.params i → (readReg t d).getLsbD i = s.sr.getLsbD i) ∧
      (∀ i : Fin 32, 4 ≤ i.val → (readReg t d).getLsbD i = false)

/-- R152 corner case (b): MUSFR followed by MUSTR gives the low four bits of the source, where SR[3:0] holds state. -/
def Obligations.MusfrThenMustrKeepsTheLowBits : Prop :=
  ∀ (r d : Reg) (s t u : State), (∀ i : Fin 32, i.val < 4 → Implemented s.params i) →
    exec (.musfr r) s = .next t → exec (.mustr d) t = .next u → readReg u d = readReg s r &&& 0xF

/-- SR{cond4} (R186): it completes and writes 1 or 0 to the whole register; where the fields of SR hold state, it is 1
exactly when the row of `COND_TABLE` at the condition's code is true of them (R31). -/
def Obligations.SrCondWritesTheCondition : Prop :=
  ∀ (cond : Cond) (d : Reg) (s : State), Ready (.srCond cond d) s →
    ∃ t, exec (.srCond cond d) s = .next t ∧ PcMovesOn (.srCond cond d) 2 s t ∧ KeptAllBut [.pc, .x] s t ∧ OtherRegsKept d s t ∧
      (readReg t d = 1 ∨ readReg t d = 0) ∧
      ((∀ f : SrField, Implemented s.params (srPos s.params.srLayout f)) →
        readReg t d =
          if evalBool (fun f => s.sr.getLsbD (srPos s.params.srLayout f)) s.params.condTable[cond.code.toNat] then 1 else 0)

/-- The default `COND_TABLE` is the table of R31 (its content is marked general knowledge in the spec; log 18). -/
def Obligations.DefaultConditionTable : Prop :=
  ∀ (flag : SrField → Bool) (cond : Cond),
    evalBool flag defaultParams.condTable[cond.code.toNat] =
      match cond with
      | .eq => flag .z
      | .ne => !flag .z
      | .cc => !flag .c
      | .cs => flag .c
      | .ge => flag .n == flag .v
      | .lt => flag .n != flag .v
      | .mi => flag .n
      | .pl => !flag .n
      | .ls => flag .c || flag .z
      | .gt => !flag .z && flag .n == flag .v
      | .le => flag .z || flag .n != flag .v
      | .hi => !flag .c && !flag .z
      | .vs => flag .v
      | .vc => !flag .v
      | .qs => flag .q
      | .al => true

/-! ### System and debug registers -/

/-- MFSR (R148): at a mapped address it completes and the destination is that register, for SR on the bits that hold state
(R30); nothing else changes.  At an unmapped address it is refused (corner case a). -/
def Obligations.MfsrReadsTheMappedRegister : Prop :=
  ∀ (d : Reg) (a : RegAddr) (s : State), Ready (.mfsr d a) s →
    (∀ r : SysReg, s.params.sysRegMap.lookup a = some r →
      ∃ t, exec (.mfsr d a) s = .next t ∧ PcMovesOn (.mfsr d a) 4 s t ∧ KeptAllBut [.pc, .x] s t ∧ OtherRegsKept d s t ∧
        match r with
        | .sr => ∀ i : Fin 32, Implemented s.params i → (readReg t d).getLsbD i = s.sr.getLsbD i
        | .evba => readReg t d = s.evba
        | .rsrDbg => readReg t d = s.rsrDbg
        | .rarDbg => readReg t d = s.rarDbg
        | .tlbehi => readReg t d = s.tlbehi
        | .tlbelo => readReg t d = s.tlbelo
        | .mmucr => readReg t d = s.mmucr) ∧
    (s.params.sysRegMap.lookup a = none → exec (.mfsr d a) s = .refused .unmappedSystemRegister)

/-- MTSR (R150): at a mapped address, with a value that does not turn translation on, it completes; that register becomes
the value (SR on the bits that hold state), the hazard window of the register opens (R266), nothing else changes.
At an unmapped address, and with a value of MMUCR that turns translation on, it is refused (corner cases a, c). -/
def Obligations.MtsrWritesTheMappedRegister : Prop :=
  ∀ (a : RegAddr) (x : Reg) (s : State), Ready (.mtsr a x) s →
    (∀ r : SysReg, s.params.sysRegMap.lookup a = some r → (r = .mmucr → mmuEnabled s.params (readReg s x) = false) →
      ∃ t, exec (.mtsr a x) s = .next t ∧ PcMovesOn (.mtsr a x) 4 s t ∧
        t.windows = (if s.params.hazardWindow = 0 then ageWindows s.windows
          else ⟨.sys r, s.params.hazardWindow⟩ :: ageWindows s.windows) ∧
        match r with
        | .sr =>
          (∀ i : Fin 32, t.sr.getLsbD i = if Implemented s.params i then (readReg s x).getLsbD i else s.sr.getLsbD i) ∧
            KeptAllBut [.pc, .sr, .windows] s t
        | .evba => t.evba = readReg s x ∧ KeptAllBut [.pc, .evba, .windows] s t
        | .rsrDbg => t.rsrDbg = readReg s x ∧ KeptAllBut [.pc, .rsrDbg, .windows] s t
        | .rarDbg => t.rarDbg = readReg s x ∧ KeptAllBut [.pc, .rarDbg, .windows] s t
        | .tlbehi => t.tlbehi = readReg s x ∧ KeptAllBut [.pc, .tlbehi, .windows] s t
        | .tlbelo => t.tlbelo = readReg s x ∧ KeptAllBut [.pc, .tlbelo, .windows] s t
        | .mmucr => t.mmucr = readReg s x ∧ KeptAllBut [.pc, .mmucr, .windows] s t) ∧
    (s.params.sysRegMap.lookup a = none → exec (.mtsr a x) s = .refused .unmappedSystemRegister) ∧
    (s.params.sysRegMap.lookup a = some .mmucr → mmuEnabled s.params (readReg s x) = true →
      exec (.mtsr a x) s = .refused .mmuEnable)

/-- MFDR (R147): it completes; with plain storage the destination is the debug register at byte address `4 * k`, without
it any word; nothing else changes. -/
def Obligations.MfdrReadsTheDebugRegister : Prop :=
  ∀ (d : Reg) (k : Fin 256) (s : State), Ready (.mfdr d (BitVec.ofNat 10 (4 * k.val))) s →
    ∃ t, exec (.mfdr d (BitVec.ofNat 10 (4 * k.val))) s = .next t ∧ PcMovesOn (.mfdr d (BitVec.ofNat 10 (4 * k.val))) 4 s t ∧ KeptAllBut [.pc, .x] s t ∧
      OtherRegsKept d s t ∧ (s.params.dbgPlainStorage = true → readReg t d = s.dbg[k])

/-- MTDR (R149): it completes; the debug register at byte address `4 * k` becomes the source, every other debug register
is as before, the hazard window of the register opens (R266), nothing else changes. -/
def Obligations.MtdrWritesTheDebugRegister : Prop :=
  ∀ (k : Fin 256) (x : Reg) (s : State), Ready (.mtdr (BitVec.ofNat 10 (4 * k.val)) x) s →
    ∃ t, exec (.mtdr (BitVec.ofNat 10 (4 * k.val)) x) s = .next t ∧ PcMovesOn (.mtdr (BitVec.ofNat 10 (4 * k.val)) x) 4 s t ∧
      KeptAllBut [.pc, .dbg, .windows] s t ∧ t.dbg[k] = readReg s x ∧ (∀ j : Fin 256, j ≠ k → t.dbg[j] = s.dbg[j]) ∧
      t.windows = (if s.params.hazardWindow = 0 then ageWindows s.windows
        else ⟨.dbg k, s.params.hazardWindow⟩ :: ageWindows s.windows)

/-! ### Hidden state and hints -/

/-- NOP (R180): it completes and only pc changes. -/
def Obligations.NopOnlyAdvancesPc : Prop :=
  ∀ s : State, Ready .nop s → ∃ t, exec .nop s = .next t ∧ PcMovesOn .nop 2 s t ∧ KeptAllBut [.pc] s t

/-- FRS (R146): it completes, the return address stack is empty, nothing else but pc changes. -/
def Obligations.FrsEmptiesTheReturnStack : Prop :=
  ∀ s : State, Ready .frs s → ∃ t, exec .frs s = .next t ∧ PcMovesOn .frs 2 s t ∧ t.ras = [] ∧ KeptAllBut [.pc, .ras] s t

/-- PREF (R182, R183): whatever the address, it completes, and only pc and the hidden cache state may change; what the cache
becomes is a free value of the address `x[p] + sext(disp)`. -/
def Obligations.PrefChangesNoArchitecturalState : Prop :=
  ∀ (p : Reg) (disp : BitVec 16) (s : State), Ready (.pref p disp) s →
    ∃ t, exec (.pref p disp) s = .next t ∧ PcMovesOn (.pref p disp) 4 s t ∧ KeptAllBut [.pc, .cache] s t ∧
      t.cache = Config.cachePrefetch (readReg s p + disp.signExtend 32) s.cache (s.draws + 1)

/-- CACHE (R143): under policy nop it completes and applies the free `CacheCommand` of selector Op[4:3], command Op[2:0] and
address `x[p] + sext(disp)` to the hidden cache state, and only that and pc change; under policy refuse it is refused.
Which policy the machine has after reset is the model's choice (log 6); the statement holds for both. -/
def Obligations.CacheFollowsThePolicy : Prop :=
  ∀ (p : Reg) (disp : BitVec 11) (op : BitVec 5) (s : State), Ready (.cache p disp op) s →
    (s.params.cachePolicy = .nop →
      ∃ t, exec (.cache p disp op) s = .next t ∧ PcMovesOn (.cache p disp op) 4 s t ∧ KeptAllBut [.pc, .cache] s t ∧
        t.cache = Config.cacheCommand (op.extractLsb' 3 2) (op.extractLsb' 0 3) (readReg s p + disp.signExtend 32) s.cache) ∧
    (s.params.cachePolicy = .refuse → exec (.cache p disp op) s = .refused .cacheCommandIsImplementationDefined)

/-- SYNC (R190, R83): for every Op8 it completes, and nothing but pc, the pending accesses and the write buffers changes.
With the full barrier, the spec's default (D20), no access is pending and the write buffers are empty; with a weaker `SyncOp`
exactly the accesses it covers for this Op8 are no longer pending, and the write buffers are emptied or kept as it says (log 43).
That the hold ends within the step is the model's (log 23). -/
def Obligations.SyncCompletesAllAccesses : Prop :=
  ∀ (op : BitVec 8) (s : State), Ready (.sync op) s →
    ∃ t, exec (.sync op) s = .next t ∧ PcMovesOn (.sync op) 4 s t ∧ KeptAllBut [.pc, .pending, .writeBuffers] s t ∧
      (s.params.syncOp = fullBarrier → t.pending = [] ∧ t.writeBuffers = []) ∧
      (∀ a : MemAccess, a ∈ t.pending ↔
        a ∈ s.pending ∧ evalBool (fun i : Fin 8 => op.getLsbD i) (if a.isStore then s.params.syncOp.stores
          else s.params.syncOp.loads) = false) ∧
      t.writeBuffers = if evalBool (fun i : Fin 8 => op.getLsbD i) s.params.syncOp.writeBuffers then [] else s.writeBuffers

/-- SLEEP (R184): it completes; the core is asleep in mode Op8, GM is cleared when Op8[7] = 1, nothing else but pc changes. -/
def Obligations.SleepEntersTheMode : Prop :=
  ∀ (op : BitVec 8) (s : State), Ready (.sleep op) s →
    ∃ t, exec (.sleep op) s = .next t ∧ PcMovesOn (.sleep op) 4 s t ∧ t.sleep = some op ∧ KeptAllBut [.pc, .sleep, .sr] s t ∧
      (op.getLsbD 7 = true → Implemented s.params s.params.srLayout.gm → t.sr.getLsbD s.params.srLayout.gm = false) ∧
      (∀ i : Fin 32, op.getLsbD 7 = false ∨ i ≠ s.params.srLayout.gm ∨ ¬ Implemented s.params i →
        t.sr.getLsbD i = s.sr.getLsbD i)

/-! ### The breakpoint trap -/

/-- BREAKPOINT (R141, R142).  With the debug system enabled and SR[DM] = 0 it completes by taking the trap: RSR_DBG is the old
SR on the bits that hold state, RAR_DBG the address of the BREAKPOINT plus the offset parameter, pc is EVBA + 0x1C, nothing
but these and SR changes; and where the nine fields stand at different bits that hold state, they have the values of
R141 and every other bit of SR is as before.  Otherwise it completes as a 2-byte NOP. -/
def Obligations.BreakpointTrapsOrIsANop : Prop :=
  ∀ s : State, Ready .breakpoint s →
    (ocdEnabled (issued s) = true → srField (issued s) .dm = false →
      ∃ t, exec .breakpoint s = .next t ∧ t.pc = s.evba + 0x1C ∧ KeptAllBut [.pc, .sr, .rsrDbg, .rarDbg] s t ∧
        (∀ i : Fin 32, Implemented s.params i → t.rsrDbg.getLsbD i = s.sr.getLsbD i) ∧
        (match s.params.bkptRarOffset with
          | .zero => t.rarDbg = s.pc
          | .two => t.rarDbg = s.pc + 2
          | .unfixed => t.rarDbg = s.pc ∨ t.rarDbg = s.pc + 2) ∧
        (∀ i : Fin 32, (∀ f ∈ trapFields, i ≠ srPos s.params.srLayout f) → t.sr.getLsbD i = s.sr.getLsbD i) ∧
        (TrapFieldsApart s.params →
          t.sr.getLsbD s.params.srLayout.r = s.params.bkptR ∧ t.sr.getLsbD s.params.srLayout.j = s.params.bkptJ ∧
          t.sr.getLsbD s.params.srLayout.d = true ∧ t.sr.getLsbD s.params.srLayout.m2 = true ∧
          t.sr.getLsbD s.params.srLayout.m1 = true ∧ t.sr.getLsbD s.params.srLayout.m0 = false ∧
          t.sr.getLsbD s.params.srLayout.dm = true ∧ t.sr.getLsbD s.params.srLayout.em = true ∧
          t.sr.getLsbD s.params.srLayout.gm = true)) ∧
    ((ocdEnabled (issued s) = false ∨ srField (issued s) .dm = true) →
      ∃ t, exec .breakpoint s = .next t ∧ t.pc = s.pc + 2 ∧ KeptAllBut [.pc] s t)

/-- R231: after a taken trap a BREAKPOINT in the handler completes as a NOP, and RSR_DBG and RAR_DBG are not overwritten. -/
def Obligations.BreakpointTrapDoesNotNest : Prop :=
  ∀ s t : State, TrapFieldsApart s.params → breakpointTraps (issued s) = true → exec .breakpoint s = .next t →
    Ready .breakpoint t →
    ∃ u, exec .breakpoint t = .next u ∧ u.pc = t.pc + 2 ∧ KeptAllBut [.pc] t u

/-! ### The TLB instructions -/

/-- TLBR (R191): with the pointer inside the selected TLB it completes, TLBEHI and TLBELO become the entry, nothing else
but pc changes; with a pointer that is not below the number of entries it is refused. -/
def Obligations.TlbrReadsTheAddressedEntry : Prop :=
  ∀ s : State, Ready .tlbr s →
    match (if getField s.params.mmuLayout.itlb s.tlbehi = 1 then s.itlb[getField s.params.mmuLayout.irp s.mmucr]?
      else s.dtlb[getField s.params.mmuLayout.drp s.mmucr]?) with
    | some e =>
      ∃ t, exec .tlbr s = .next t ∧ PcMovesOn .tlbr 2 s t ∧ t.tlbehi = e.hi ∧ t.tlbelo = e.lo ∧
        KeptAllBut [.pc, .tlbehi, .tlbelo] s t
    | none => exec .tlbr s = .refused .tlbIndexOutOfRange

/-- TLBW (R194, C3): with the pointer inside the selected TLB it completes, the addressed entry becomes the pair
{TLBEHI, TLBELO}, and every other entry, the other TLB and everything else but pc are as before; with a pointer that is
not below the number of entries it is refused. -/
def Obligations.TlbwWritesTheAddressedEntry : Prop :=
  ∀ s : State, Ready .tlbw s →
    if getField s.params.mmuLayout.itlb s.tlbehi = 1 then
      if getField s.params.mmuLayout.irp s.mmucr < s.itlb.length then
        ∃ t, exec .tlbw s = .next t ∧ PcMovesOn .tlbw 2 s t ∧ KeptAllBut [.pc, .itlb] s t ∧
          t.itlb = s.itlb.set (getField s.params.mmuLayout.irp s.mmucr) ⟨s.tlbehi, s.tlbelo⟩
      else exec .tlbw s = .refused .tlbIndexOutOfRange
    else
      if getField s.params.mmuLayout.drp s.mmucr < s.dtlb.length then
        ∃ t, exec .tlbw s = .next t ∧ PcMovesOn .tlbw 2 s t ∧ KeptAllBut [.pc, .dtlb] s t ∧
          t.dtlb = s.dtlb.set (getField s.params.mmuLayout.drp s.mmucr) ⟨s.tlbehi, s.tlbelo⟩
      else exec .tlbw s = .refused .tlbIndexOutOfRange

/-- R194 corner case (a): TLBW then TLBR returns the pair written. -/
def Obligations.TlbwThenTlbrReturnsThePair : Prop :=
  ∀ s t : State, exec .tlbw s = .next t → Ready .tlbr t →
    ∃ u, exec .tlbr t = .next u ∧ u.tlbehi = s.tlbehi ∧ u.tlbelo = s.tlbelo

/-- TLBS (R192): it completes, and only pc and MMUCR change. -/
def Obligations.TlbsChangesOnlyMmucr : Prop :=
  ∀ s : State, Ready .tlbs s → ∃ t, exec .tlbs s = .next t ∧ PcMovesOn .tlbs 2 s t ∧ KeptAllBut [.pc, .mmucr] s t

/-- TLBS that finds an entry (R192, R193 a): with the default layout and VMM selector, where `j` is the highest matching index
of the selected TLB, N is 0, the pointer field is `j`, and every other bit of MMUCR is as before. -/
def Obligations.TlbsReturnsTheHighestMatch : Prop :=
  ∀ (s : State) (j : Nat) (e : TlbEntry), Ready .tlbs s → s.params.mmuLayout = defaultMmuLayout →
    s.params.vmmShared = .atom 1 → j < 64 → (selectedTlb s)[j]? = some e →
    entryMatches s.params s.tlbehi s.mmucr e = true →
    (∀ k e', j < k → (selectedTlb s)[k]? = some e' → entryMatches s.params s.tlbehi s.mmucr e' = false) →
    ∃ t, exec .tlbs s = .next t ∧ t.mmucr.getLsbD 3 = false ∧
      getField (if itlbSelected s then ⟨26, 6⟩ else ⟨14, 6⟩) t.mmucr = j ∧
      ∀ i : Fin 32, i.val ≠ 3 → (i.val < (if itlbSelected s then 26 else 14) ∨ (if itlbSelected s then 26 else 14) + 6 ≤ i.val) →
        t.mmucr.getLsbD i = s.mmucr.getLsbD i

/-- TLBS that finds no entry (R192, R193 b): with the default layout and VMM selector, N is 1, and every bit of MMUCR outside
N and the pointer field is as before; the pointer field holds any value. -/
def Obligations.TlbsReportsNoMatch : Prop :=
  ∀ s : State, Ready .tlbs s → s.params.mmuLayout = defaultMmuLayout → s.params.vmmShared = .atom 1 →
    (∀ e ∈ selectedTlb s, entryMatches s.params s.tlbehi s.mmucr e = false) →
    ∃ t, exec .tlbs s = .next t ∧ t.mmucr.getLsbD 3 = true ∧
      ∀ i : Fin 32, i.val ≠ 3 → (i.val < (if itlbSelected s then 26 else 14) ∨ (if itlbSelected s then 26 else 14) + 6 ≤ i.val) →
        t.mmucr.getLsbD i = s.mmucr.getLsbD i

/-- The match rule (R79) with the default layout, page sizes and VMM selector: the entry is valid (bit 9), its page number and
the searched one agree above the page offset of its size (bits [3:2]), and the mode is shared (MMUCR bit 1) or the entry
is global (bit 8) or carries the searched ASID (bits [7:0]). -/
def Obligations.DefaultTlbMatchRule : Prop :=
  ∀ (key mmucr : Word) (e : TlbEntry),
    entryMatches defaultParams key mmucr e = true ↔
      e.hi.getLsbD 9 = true ∧
      (∀ i : Fin 32, [10, 12, 16, 20].getD (e.lo.extractLsb' 2 2).toNat 0 ≤ i.val → e.hi.getLsbD i = key.getLsbD i) ∧
      (mmucr.getLsbD 1 = true ∨ e.lo.getLsbD 8 = true ∨ e.hi.extractLsb' 0 8 = key.extractLsb' 0 8)

/-! ### The checks before an instruction executes -/

/-- R22: when `R15_ALIASES_PC` holds an instruction with a register operand 15 is refused, when it does not none is refused
for that reason. -/
def Obligations.RegisterOperand15IsRefused : Prop :=
  ∀ (i : Instr) (s : State), i.WellFormed →
    (s.params.r15AliasesPc = true → (15 : Reg) ∈ regOperands i → exec i s = .refused .registerOperand15) ∧
    (s.params.r15AliasesPc = false → exec i s ≠ .refused .registerOperand15)

/-- R235: an instruction of `PRIV_SET` in application mode is refused; in every other mode none is refused for that reason. -/
def Obligations.PrivilegedInApplicationModeIsRefused : Prop :=
  ∀ (i : Instr) (s : State), i.WellFormed → (s.params.r15AliasesPc = true → (15 : Reg) ∉ regOperands i) →
    (privClass i ∈ s.params.privSet → mode s = 0b000#3 → exec i s = .refused .privilegedInApplicationMode) ∧
    (mode s ≠ 0b000#3 → exec i s ≠ .refused .privilegedInApplicationMode)

/-- The default `PRIV_SET` is the list of R235, for every instruction (its content is marked general knowledge in the spec; log 8). -/
def Obligations.DefaultPrivilegedInstructions : Prop :=
  ∀ i : Instr, privileged defaultParams i =
    match i with
    | .cache _ _ _ | .mfdr _ _ | .mfsr _ _ | .mtdr _ _ | .mtsr _ _ | .sleep _ | .tlbr | .tlbs | .tlbw => true
    | .csrf bp => decide (16 ≤ bp.val)
    | .ssrf bp => decide (16 ≤ bp.val)
    | .breakpoint | .csrfcz _ | .frs | .musfr _ | .mustr _ | .nop | .pref _ _ | .srCond _ _ | .sync _ => false

/-- R266: an instruction that depends on a register with an open hazard window is refused. -/
def Obligations.HazardIsRefused : Prop :=
  ∀ (i : Instr) (s : State) (w : HazardWindow), i.WellFormed →
    (s.params.r15AliasesPc = true → (15 : Reg) ∉ regOperands i) →
    (privClass i ∈ s.params.privSet → mode s ≠ 0b000#3) →
    w ∈ s.windows → 0 < w.left → dependsOn s.params i w.target = true →
    exec i s = .refused .systemRegisterHazard

/-- R266 at its first instruction: with a window W > 0, directly after an MTSR to a register, or an MTDR, every instruction that
R266 lists as depending on that register is refused, where no earlier check of R140 applies. -/
def Obligations.HazardWindowOpensAfterAWrite : Prop :=
  ∀ (i : Instr) (x : Reg) (s t : State), 0 < s.params.hazardWindow → i.WellFormed →
    (s.params.r15AliasesPc = true → (15 : Reg) ∉ regOperands i) →
    (privClass i ∈ s.params.privSet → mode t ≠ 0b000#3) →
    (∀ (a : RegAddr) (r : SysReg), exec (.mtsr a x) s = .next t → s.params.sysRegMap.lookup a = some r →
      DependsByR266 s.params (.sys r) i → exec i t = .refused .systemRegisterHazard) ∧
    (∀ k : Fin 256, exec (.mtdr (BitVec.ofNat 10 (4 * k.val)) x) s = .next t →
      DependsByR266 s.params (.dbg k) i → exec i t = .refused .systemRegisterHazard)

/-- R181, R268: where NOP is not privileged, as many NOPs as the longest open window covers all execute, and after them no
window is open. -/
def Obligations.NopsCloseTheHazardWindows : Prop :=
  ∀ (n : Nat) (s : State), PrivClass.nop ∉ s.params.privSet → (∀ w ∈ s.windows, 0 < w.left ∧ w.left ≤ n) →
    ∃ t, nops n s = some t ∧ t.windows = []

/-! ### Whole-machine rules -/

/-- R195: the only instruction that makes the next one anything but the following one is BREAKPOINT, and its target is
EVBA + 0x1C. -/
def Obligations.OnlyBreakpointTransfersControl : Prop :=
  ∀ (i : Instr) (s t : State), exec i s = .next t →
    t.pc = s.pc + BitVec.ofNat 32 (i.ilen s.params.encoding) ∨ (i = .breakpoint ∧ t.pc = s.evba + 0x1C)

/-- R26: SR is written by CSRF, SSRF, CSRFCZ, MUSFR, BREAKPOINT, SLEEP and an MTSR whose address is SR's, and by no other
instruction. -/
def Obligations.OnlyTheseInstructionsWriteSr : Prop :=
  ∀ (i : Instr) (s t : State), exec i s = .next t → t.sr ≠ s.sr →
    match i with
    | .csrf _ | .ssrf _ | .csrfcz _ | .musfr _ | .breakpoint | .sleep _ => True
    | .mtsr a _ => s.params.sysRegMap.lookup a = some .sr
    | .cache _ _ _ | .frs | .mfdr _ _ | .mfsr _ _ | .mtdr _ _ | .mustr _ | .nop | .pref _ _ | .srCond _ _ | .sync _
    | .tlbr | .tlbs | .tlbw => False

/-- R20: a general register is written by MFDR, MFSR, MUSTR and SR{cond4} only, and it is their destination. -/
def Obligations.OnlyTheseInstructionsWriteRegisters : Prop :=
  ∀ (i : Instr) (s t : State) (r : Reg), exec i s = .next t → readReg t r ≠ readReg s r →
    match i with
    | .mfdr d _ | .mfsr d _ | .mustr d | .srCond _ d => r = d
    | .breakpoint | .cache _ _ _ | .csrf _ | .csrfcz _ | .frs | .mtdr _ _ | .mtsr _ _ | .musfr _ | .nop | .pref _ _
    | .sleep _ | .ssrf _ | .sync _ | .tlbr | .tlbs | .tlbw => False

/-- R30: a bit of SR outside `SR_IMPLEMENTED_MASK` is never written by a step. -/
def Obligations.UnimplementedSrBitsAreNeverWritten : Prop :=
  ∀ (s t : State) (i : Fin 32), step s = .next t → ¬ Implemented s.params i → t.sr.getLsbD i = s.sr.getLsbD i

/-- R196, R85: no step writes a byte of main memory, and none changes a parameter. -/
def Obligations.StepKeepsMemoryAndParameters : Prop :=
  ∀ s t : State, step s = .next t → (∀ a : Nat, readByte t.mem a = readByte s.mem a) ∧ t.params = s.params

/-- Every step keeps the invariant: canonical memory, SR inside its mask, the number of TLB entries and
R6's bound on it, the bounds of the hazard windows. -/
def Obligations.StepKeepsTheMachineInvariant : Prop :=
  ∀ s t : State, Inv s → step s = .next t → Inv t

/-- The invariant holds after reset, with the default parameters and with any others R6 admits. -/
def Obligations.ResetMeetsTheMachineInvariant : Prop :=
  Inv State.reset ∧ ∀ p : Params, TlbEntriesAdmitted p → Inv (State.resetWith p)

/-- R80, premise MMUDisabled: with the default layout and enable bit, a step from a state with translation off leaves it off. -/
def Obligations.NoStepTurnsTranslationOn : Prop :=
  ∀ s t : State, s.params.mmuLayout = defaultMmuLayout → s.params.mmuEnabled = .atom 0 → s.mmucr.getLsbD 0 = false →
    step s = .next t → t.mmucr.getLsbD 0 = false

/-- R234, R235: with the default SR layout and `PRIV_SET`, a step leaves application mode only by taking the breakpoint trap:
the mode is then 0b110 and pc is EVBA + 0x1C. -/
def Obligations.OnlyTheTrapLeavesApplicationMode : Prop :=
  ∀ s t : State, s.params.srLayout = defaultSrLayout → s.params.srMask = defaultSrMask → s.params.privSet = defaultPrivSet →
    mode s = 0b000#3 → step s = .next t →
    mode t = 0b000#3 ∨ (mode t = 0b110#3 ∧ t.pc = s.evba + 0x1C)

/-! ### The step -/

/-- R140, R101: where the core is running and may fetch, and the bytes at pc decode to a well-formed instruction, the step
is that instruction's execution from the state after the fetch, which differs from the state before it in the hidden
cache state (R47) and the model's counter of draws only. -/
def Obligations.StepRunsTheDecodedInstruction : Prop :=
  ∀ (s : State) (i : Instr) (bytes : List Byte), Running s → MayFetch s → i.WellFormed →
    readBytes s.mem s.pc (i.ilen s.params.encoding) = some bytes → decode s.params.encoding s.params.bigEndian bytes = .ok (i, []) →
    step s = exec i (afterFetch s) ∧
      afterFetch s = { s with cache := (afterFetch s).cache, draws := s.draws + 2 }

/-- A running core with an odd pc (R25) or with SR[J] = 1 (R101) is refused.
The third clause is the model's: R80 refuses only the MTSR that would turn translation on, and the model itself checks the
premise MMUDisabled at the fetch (log 26).  The order of the three is the model's too (log 30). -/
def Obligations.FetchIsRefused : Prop :=
  ∀ s : State, Running s →
    (s.pc.getLsbD 0 = true → step s = .refused .misalignedPc) ∧
    (s.pc.getLsbD 0 = false → srField (redrawn s) .j = true → step s = .refused .javaState) ∧
    (s.pc.getLsbD 0 = false → srField (redrawn s) .j = false → mmuEnabled s.params s.mmucr = true →
      step s = .refused .translationEnabled)

/-- R264 (c): a running core that may fetch, with a byte of the first halfword absent, is stuck; with the first
halfword of an extended instruction present and a byte of the second absent, it is stuck there. -/
def Obligations.FetchFromAbsentMemoryIsStuck : Prop :=
  ∀ s : State, Running s → MayFetch s →
    (memRead s s.pc 2 = none → step s = .fault (.stuckFetch s.pc)) ∧
    (∀ n, memRead s s.pc 2 = some n → isExtended s.params.encoding (BitVec.ofNat 16 n) = true → memRead s (s.pc + 2) 2 = none →
      step s = .fault (.stuckFetch (s.pc + 2)))

/-- R113: under any `ENCODING_TABLE` a word that matches the row of no instruction of its length is refused by the decoder and by
the step that fetches it. -/
def Obligations.WordsOutsideTheMapAreRefused : Prop :=
  (∀ (t : EncodingTable) (w : Half), decodeCompact t w = .error (.unknownCompact w) ↔
    ∀ o r, t.row o = .compact r → w &&& r.mask ≠ r.pattern) ∧
  (∀ (t : EncodingTable) (w : Word), decodeExtended t w = .error (.unknownExtended w) ↔
    ∀ o r, t.row o = .extended r → w &&& r.mask ≠ r.pattern) ∧
  (∀ (s : State) (n : Nat), Running s → MayFetch s → memRead s s.pc 2 = some n →
    isExtended s.params.encoding (BitVec.ofNat 16 n) = false →
    (∀ o r, s.params.encoding.row o = .compact r → BitVec.ofNat 16 n &&& r.mask ≠ r.pattern) →
    step s = .refused (.notOneOfThe20 (.unknownCompact (BitVec.ofNat 16 n)))) ∧
  (∀ (s : State) (n m : Nat) (w : Word), Running s → MayFetch s → memRead s s.pc 2 = some n →
    isExtended s.params.encoding (BitVec.ofNat 16 n) = true → memRead s (s.pc + 2) 2 = some m →
    w = BitVec.ofNat 16 n ++ BitVec.ofNat 16 m →
    (∀ o r, s.params.encoding.row o = .extended r → w &&& r.mask ≠ r.pattern) →
    step s = .refused (.notOneOfThe20 (.unknownExtended w)))

/-- R185 under NoAsyncEvents (R226): a sleeping core is held; the step executes no instruction and its state is unchanged. -/
def Obligations.SleepingCoreIsHeld : Prop :=
  ∀ (s : State) (m : BitVec 8), s.sleep = some m → s.events = [] → step s = .next s

/-- R226: whatever event is raised, masked or not, running or asleep, the step is refused.
Which of the three names the refusal has is the model's (log 24): asleep it is the wake when `WakeEvent` says the event ends the
sleep, otherwise it tells whether a mask of SR shuts the event out. -/
def Obligations.AsynchronousEventsAreRefused : Prop :=
  ∀ (s : State) (e : AsyncEvent) (es : List AsyncEvent), s.events = e :: es →
    (s.sleep = none → step s = .refused (if eventMasked s e then .maskedEvent e else .asyncEvent e)) ∧
    (∀ m, s.sleep = some m → endsSleep s (sleepModeOf s.params m) e = true →
      step s = .refused (.wakeEvent (sleepModeOf s.params m) e)) ∧
    (∀ m, s.sleep = some m → endsSleep s (sleepModeOf s.params m) e = false →
      step s = .refused (if eventMasked s e then .maskedEvent e else .asyncEvent e))

/-! ### Encoding -/

/-- Decode and encode agree under the default table: in either byte order the bytes of a well-formed instruction, whatever follows them, decode to
it (R100 to R112). -/
def Obligations.DecodeOfEncodeIsTheInstruction : Prop :=
  ∀ (bigEndian : Bool) (i : Instr) (rest : List Byte), i.WellFormed →
    decode defaultEncoding bigEndian (i.encodeBytes bigEndian ++ rest) = .ok (i, rest)

/-- Under the default table every word has one meaning: a word that decodes to an instruction is that instruction's word, and the instruction is
well-formed (R112). -/
def Obligations.EncodeOfDecodeIsTheWord : Prop :=
  (∀ (w : Half) (i : Instr), decodeCompact defaultEncoding w = .ok i → i.encode = .compact w ∧ i.WellFormed) ∧
  (∀ (w : Word) (i : Instr), decodeExtended defaultEncoding w = .ok i → i.encode = .extended w ∧ i.WellFormed)

/-- R112: under the default table no two rows of one length overlap, every pair differs in a bit fixed in both. -/
def Obligations.OpcodeRowsDoNotOverlap : Prop :=
  defaultEncoding.compactRows.Pairwise (fun p q => (p.2.pattern ^^^ q.2.pattern) &&& (p.2.mask &&& q.2.mask) ≠ 0) ∧
  defaultEncoding.extendedRows.Pairwise (fun p q => (p.2.pattern ^^^ q.2.pattern) &&& (p.2.mask &&& q.2.mask) ≠ 0)

/-- R114: a word of the opcode of format ERK8 with a one in bits [15:8], or of format EK8 with a one in bits [19:8], is none
of the 20 instructions. -/
def Obligations.MustBeZeroFieldsAreChecked : Prop :=
  ∀ w : Word,
    (w.extractLsb' 20 12 ∈ [0xE5B#12, 0xE1B#12, 0xE7B#12, 0xE3B#12] → w.extractLsb' 8 8 ≠ 0 →
      decodeExtended defaultEncoding w = .error (.unknownExtended w)) ∧
    (w.extractLsb' 20 12 ∈ [0xE9B#12, 0xEBB#12] → w.extractLsb' 8 12 ≠ 0 →
      decodeExtended defaultEncoding w = .error (.unknownExtended w))

/-- Words written out from the encodings of R112 decode to the instructions they stand for. -/
def Obligations.SampleWordsDecode : Prop :=
  decodeTableWord 16 0b1101011001110011 = some .breakpoint ∧
  decodeTableWord 16 0b1101010111110011 = some (.csrf 31) ∧
  decodeTableWord 16 0b0101111110101000 = some (.srCond .le 8) ∧
  decodeTableWord 32 0b11100001101101110000000001001000 = some (.mfsr 7 288) ∧
  decodeTableWord 32 0b11110100000100100101110000000000 = some (.cache 2 (BitVec.ofInt 11 (-1024)) 11)

/-! ### Reset -/

/-- R260, R52, R261: after reset with any parameters pc, EVBA and the bits of SR that hold state are the reset parameters, the
core runs, no access is pending; with the default parameters pc is 0x80000000, SR is 0x00610000 (mode 0b001) and EVBA 0. -/
def Obligations.ResetGivesTheResetParameters : Prop :=
  (∀ p : Params, (State.resetWith p).pc = p.resetPc ∧ (State.resetWith p).evba = p.resetEvba ∧
    (∀ i : Fin 32, Implemented p i → (State.resetWith p).sr.getLsbD i = p.resetSr.getLsbD i) ∧
    (State.resetWith p).sleep = none ∧ (State.resetWith p).pending = [] ∧ (State.resetWith p).writeBuffers = []) ∧
  State.reset.pc = 0x80000000 ∧ State.reset.sr = 0x00610000 ∧ State.reset.evba = 0 ∧ mode State.reset = 0b001#3

/-! ### Hazards, the other side -/

/-- R266, R268: with no window open before it, an MTSR or MTDR makes no instruction outside R266's list for the register it wrote
refused for a hazard. -/
def Obligations.HazardSparesIndependentInstructions : Prop :=
  ∀ (i : Instr) (x : Reg) (s t : State), s.windows = [] →
    (∀ (a : RegAddr) (r : SysReg), exec (.mtsr a x) s = .next t → s.params.sysRegMap.lookup a = some r →
      ¬ DependsByR266 s.params (.sys r) i → exec i t ≠ .refused .systemRegisterHazard) ∧
    (∀ k : Fin 256, exec (.mtdr (BitVec.ofNat 10 (4 * k.val)) x) s = .next t →
      ¬ DependsByR266 s.params (.dbg k) i → exec i t ≠ .refused .systemRegisterHazard)

/-! ### Lengths -/

/-- R6, R24, R100: under any table the bytes an instruction is decoded from are as many as the table's length of it, and that is 2
or 4, for BREAKPOINT 2; under the default table it is 2 for the compact instructions of R100 and 4 for the extended ones. -/
def Obligations.TheTableGivesTheLength : Prop :=
  (∀ (t : EncodingTable) (bigEndian : Bool) (bytes rest : List Byte) (i : Instr),
    decode t bigEndian bytes = .ok (i, rest) → bytes.length = i.ilen t + rest.length) ∧
  (∀ (t : EncodingTable) (i : Instr), i.ilen t = 2 ∨ i.ilen t = 4) ∧
  (∀ t : EncodingTable, Instr.breakpoint.ilen t = 2) ∧
  (∀ i : Instr, i.ilen defaultEncoding =
    match i with
    | .breakpoint | .csrf _ | .csrfcz _ | .frs | .musfr _ | .mustr _ | .nop | .srCond _ _ | .ssrf _ | .tlbr | .tlbs | .tlbw => 2
    | .cache _ _ _ | .mfdr _ _ | .mfsr _ _ | .mtdr _ _ | .mtsr _ _ | .pref _ _ | .sleep _ | .sync _ => 4)

/-- R42, R44, R6: where the number of TLB entries is one R6 admits, under the default layout every entry of either TLB can be
addressed: some value of MMUCR has its index in IRP or DRP. -/
def Obligations.EveryTlbEntryCanBeAddressed : Prop :=
  ∀ (s : State) (k : Nat), Inv s → s.params.mmuLayout = defaultMmuLayout → k < (selectedTlb s).length →
    ∃ v : Word, tlbIndex { s with mmucr := v } = k ∧ addressedEntry { s with mmucr := v } = (selectedTlb s)[k]?
end

