-- ==== Sys2Proof/Laws/Bits.lean ====
section
/-! SUPPORT. What the bit and field operations do, bit by bit. -/
namespace Sys2Proof.Machine

/-- The bits of the word with one 1. -/
theorem oneBit_getLsbD (i j : Fin 32) : ((1 : Word) <<< i.val).getLsbD j = decide (j = i) := by
  have hj := j.isLt
  rw [BitVec.getLsbD_shiftLeft, show (1 : Word) = 1#32 from rfl, BitVec.getLsbD_one]
  by_cases h : j = i
  · subst h; simp
  · have hne : j.val ≠ i.val := fun e => h (Fin.ext e)
    by_cases hlt : j.val < i.val
    · simp [h, hlt]
    · have h0 : ¬ j.val - i.val = 0 := by omega
      simp [h, h0]

/-- Setting one bit of a word changes that bit only. -/
theorem setBit_getLsbD (w : Word) (i j : Fin 32) (b : Bool) :
    (setBit w i b).getLsbD j = if j = i then b else w.getLsbD j := by
  have hj := j.isLt
  unfold setBit
  cases b <;>
    simp only [if_true, Bool.false_eq_true, if_false, BitVec.getLsbD_and, BitVec.getLsbD_or, BitVec.getLsbD_not,
      oneBit_getLsbD, hj, decide_true, Bool.true_and] <;>
    by_cases h : j = i <;> simp [h]

/-- A merge takes the bits under the mask from its first word and the others from its second. -/
theorem mergeBits_getLsbD (mask v w : Word) (j : Fin 32) :
    (mergeBits mask v w).getLsbD j = if mask.getLsbD j then v.getLsbD j else w.getLsbD j := by
  have hj := j.isLt
  simp only [mergeBits, BitVec.getLsbD_and, BitVec.getLsbD_or, BitVec.getLsbD_not, hj, decide_true, Bool.true_and]
  cases mask.getLsbD j <;> simp

/-- Two words are equal when their 32 bits are. -/
theorem word_ext {v w : Word} (h : ∀ j : Fin 32, v.getLsbD j = w.getLsbD j) : v = w :=
  BitVec.eq_of_getLsbD_eq fun i hi => h ⟨i, hi⟩

/-- The bits of a field's mask. -/
theorem fieldOnes_getLsbD (f : BitField) (j : Nat) (hj : j < 32) : (fieldOnes f).getLsbD j = decide (j < f.width) := by
  simp only [fieldOnes, BitVec.getLsbD_ofNat, hj, decide_true, Bool.true_and, Nat.testBit_two_pow_sub_one]

/-- Writing a field changes the bits of the field only. -/
theorem setField_getLsbD (f : BitField) (v : Nat) (w : Word) (j : Fin 32) :
    (setField f v w).getLsbD j =
      if f.lo ≤ j.val ∧ j.val < f.lo + f.width then v.testBit (j.val - f.lo) else w.getLsbD j := by
  have hj := j.isLt
  have hsub : j.val - f.lo < 32 := by omega
  simp only [setField, BitVec.getLsbD_or, BitVec.getLsbD_and, BitVec.getLsbD_not, BitVec.getLsbD_shiftLeft, hj, decide_true,
    Bool.true_and, fieldOnes_getLsbD _ _ hsub, BitVec.getLsbD_ofNat, hsub]
  by_cases hlo : j.val < f.lo
  · have : ¬ f.lo ≤ j.val := by omega
    simp [hlo, this]
  · have hle : f.lo ≤ j.val := by omega
    by_cases hw : j.val < f.lo + f.width
    · have : j.val - f.lo < f.width := by omega
      simp [hlo, hle, hw, this]
    · have : ¬ j.val - f.lo < f.width := by omega
      simp [hlo, hw, this]

/-- The bits of a field's value. -/
theorem getField_testBit (f : BitField) (w : Word) (k : Nat) :
    (getField f w).testBit k = (decide (k < f.width) && w.getLsbD (f.lo + k)) := by
  unfold getField
  rw [← BitVec.getLsbD, BitVec.getLsbD_and, BitVec.getLsbD_ushiftRight]
  by_cases hk : k < 32
  · rw [fieldOnes_getLsbD _ _ hk, Bool.and_comm]
  · have h1 : (fieldOnes f).getLsbD k = false := BitVec.getLsbD_of_ge _ _ (by omega)
    have h2 : w.getLsbD (f.lo + k) = false := BitVec.getLsbD_of_ge _ _ (by omega)
    simp [h1, h2]

/-- Reading a field back after writing it, when it lies inside the word. -/
theorem getField_setField_same (f : BitField) (v : Nat) (w : Word) (h : f.lo + f.width ≤ 32) :
    getField f (setField f v w) = v % 2 ^ f.width := by
  apply Nat.eq_of_testBit_eq
  intro k
  rw [getField_testBit, Nat.testBit_mod_two_pow]
  by_cases hk : k < f.width
  · have := setField_getLsbD f v w ⟨f.lo + k, by omega⟩
    simp_all
  · simp [hk]

/-- Writing a field leaves a field apart from it alone. -/
theorem getField_setField_other (f g : BitField) (v : Nat) (w : Word)
    (h : f.lo + f.width ≤ g.lo ∨ g.lo + g.width ≤ f.lo) : getField g (setField f v w) = getField g w := by
  apply Nat.eq_of_testBit_eq
  intro k
  rw [getField_testBit, getField_testBit]
  by_cases hk : k < g.width
  · by_cases h32 : g.lo + k < 32
    · have := setField_getLsbD f v w ⟨g.lo + k, h32⟩
      have hn : ¬ (f.lo ≤ g.lo + k ∧ g.lo + k < f.lo + f.width) := by omega
      simp_all
    · simp [BitVec.getLsbD_of_ge _ _ (Nat.not_lt.mp h32)]
  · simp [hk]

end Sys2Proof.Machine
end

