-- ==== Sys2Proof/Laws/Decode.lean ====
section
/-! SUPPORT. What a table says of each instruction: its rows, their search, the fields of a word, and lengths. -/
namespace Sys2Proof

/-! ### Rows -/

/-- Every instruction is in the list of names. -/
theorem mem_instrNames (o : InstrName) : o ∈ instrNames := by cases o <;> decide

/-- The compact rows are those the table gives the instructions (R100). -/
theorem mem_compactRows {t : EncodingTable} {o : InstrName} {r : EncodingRow 16} :
    (o, r) ∈ t.compactRows ↔ t.row o = .compact r := by
  simp only [EncodingTable.compactRows, List.mem_filterMap]
  constructor
  · rintro ⟨o', -, h⟩
    cases hr : t.row o' <;> simp only [hr] at h <;> cases h
    exact hr
  · intro h
    exact ⟨o, mem_instrNames o, by rw [h]⟩

/-- The extended rows are those the table gives the instructions (R100). -/
theorem mem_extendedRows {t : EncodingTable} {o : InstrName} {r : EncodingRow 32} :
    (o, r) ∈ t.extendedRows ↔ t.row o = .extended r := by
  simp only [EncodingTable.extendedRows, List.mem_filterMap]
  constructor
  · rintro ⟨o', -, h⟩
    cases hr : t.row o' <;> simp only [hr] at h <;> cases h
    exact hr
  · intro h
    exact ⟨o, mem_instrNames o, by rw [h]⟩

/-! ### The search -/

/-- No row accepts the word exactly when the search finds none (R113). -/
theorem findRow_eq_none {n : Nat} (rows : List (InstrName × EncodingRow n)) (w : BitVec n) :
    findRow rows w = none ↔ ∀ o r, (o, r) ∈ rows → w &&& r.mask ≠ r.pattern := by
  simp [findRow, EncodingRow.accepts]

/-- A row the search finds is a row of the table and accepts the word (R112). -/
theorem findRow_eq_some {n : Nat} {rows : List (InstrName × EncodingRow n)} {w : BitVec n} {p : InstrName × EncodingRow n}
    (h : findRow rows w = some p) : p ∈ rows ∧ w &&& p.2.mask = p.2.pattern :=
  ⟨List.mem_of_find?_eq_some h, by simpa [EncodingRow.accepts] using List.find?_some h⟩

/-- In a table whose rows differ in a bit fixed in both, a row that accepts a word is the one the search finds (R112). -/
theorem findRow_of_mem {n : Nat} {rows : List (InstrName × EncodingRow n)}
    (hp : rows.Pairwise fun p q => (p.2.pattern ^^^ q.2.pattern) &&& (p.2.mask &&& q.2.mask) ≠ 0)
    {r : InstrName × EncodingRow n} (hr : r ∈ rows) {w : BitVec n} (hw : w &&& r.2.mask = r.2.pattern) :
    findRow rows w = some r := by
  induction rows with
  | nil => cases hr
  | cons q rows ih =>
    rw [List.pairwise_cons] at hp
    rcases List.mem_cons.mp hr with rfl | hr'
    · simp [findRow, EncodingRow.accepts, hw]
    · have hq : q.2.accepts w = false := by
        by_contra hc
        refine hp.1 r hr' ?_
        rw [← show w &&& q.2.mask = q.2.pattern by simpa [EncodingRow.accepts] using hc, ← hw]
        apply BitVec.eq_of_getLsbD_eq
        intro i _
        simp only [BitVec.getLsbD_and, BitVec.getLsbD_xor, show (0 : BitVec n).getLsbD i = false from BitVec.getLsbD_zero]
        cases w.getLsbD i <;> cases q.2.mask.getLsbD i <;> cases r.2.mask.getLsbD i <;> rfl
      rw [findRow, List.find?_cons, hq]
      exact ih hp.2 hr'

/-! ### The instruction a word is -/

/-- An operand field stands at the position the row lists (R103 to R110). -/
theorem EncodingRow.field_of_lookup {n : Nat} {r : EncodingRow n} {f : FieldName} {k : Nat}
    (h : r.fields.lookup f = some k) (width : Nat) (w : BitVec n) : r.field f width w = w.extractLsb' k width := by
  rw [EncodingRow.field, h, Option.getD_some]

/-- A row is read as the instruction it belongs to. -/
theorem EncodingRow.instr_name {n : Nat} (r : EncodingRow n) (o : InstrName) (w : BitVec n) : (r.instr o w).name = o := by
  cases o <;> rfl

/-- A compact word decodes to an instruction whose row it matches, of 2 bytes (R100, R112). -/
theorem decodeCompact_eq_ok {t : EncodingTable} {w : Half} {i : Instr} (h : decodeCompact t w = .ok i) :
    ∃ r, t.row i.name = .compact r ∧ w &&& r.mask = r.pattern ∧ i = r.instr i.name w := by
  unfold decodeCompact at h
  split at h
  · rename_i o r hf
    cases h
    rw [EncodingRow.instr_name]
    exact ⟨r, mem_compactRows.mp (findRow_eq_some hf).1, (findRow_eq_some hf).2, rfl⟩
  · cases h

/-- An extended word decodes to an instruction whose row it matches, of 4 bytes (R100, R112). -/
theorem decodeExtended_eq_ok {t : EncodingTable} {w : Word} {i : Instr} (h : decodeExtended t w = .ok i) :
    ∃ r, t.row i.name = .extended r ∧ w &&& r.mask = r.pattern ∧ i = r.instr i.name w := by
  unfold decodeExtended at h
  split at h
  · rename_i o r hf
    cases h
    rw [EncodingRow.instr_name]
    exact ⟨r, mem_extendedRows.mp (findRow_eq_some hf).1, (findRow_eq_some hf).2, rfl⟩
  · cases h

/-! ### Lengths -/

/-- An instruction with a compact row is 2 bytes long (R100). -/
theorem Instr.ilen_of_compact {t : EncodingTable} {i : Instr} {r : EncodingRow 16} (h : t.row i.name = .compact r) :
    i.ilen t = 2 := by rw [Instr.ilen, h]; rfl

/-- An instruction with an extended row is 4 bytes long (R100). -/
theorem Instr.ilen_of_extended {t : EncodingTable} {i : Instr} {r : EncodingRow 32} (h : t.row i.name = .extended r) :
    i.ilen t = 4 := by rw [Instr.ilen, h]; rfl

end Sys2Proof
end

