-- ==== Sys2Proof/Laws/State.lean ====
section
/-! SUPPORT. What each named operation leaves of each field of State, one lemma per field, all by rfl or one split. -/
namespace Sys2Proof.Machine

/-! ### Operations that write by a plain record update -/

@[simp] theorem writeReg_params (s : State) (d : Reg) (v : Word) : (writeReg s d v).params = s.params := rfl
@[simp] theorem writeReg_pc (s : State) (d : Reg) (v : Word) : (writeReg s d v).pc = s.pc := rfl
@[simp] theorem writeReg_sr (s : State) (d : Reg) (v : Word) : (writeReg s d v).sr = s.sr := rfl
@[simp] theorem writeReg_evba (s : State) (d : Reg) (v : Word) : (writeReg s d v).evba = s.evba := rfl
@[simp] theorem writeReg_rsrDbg (s : State) (d : Reg) (v : Word) : (writeReg s d v).rsrDbg = s.rsrDbg := rfl
@[simp] theorem writeReg_rarDbg (s : State) (d : Reg) (v : Word) : (writeReg s d v).rarDbg = s.rarDbg := rfl
@[simp] theorem writeReg_tlbehi (s : State) (d : Reg) (v : Word) : (writeReg s d v).tlbehi = s.tlbehi := rfl
@[simp] theorem writeReg_tlbelo (s : State) (d : Reg) (v : Word) : (writeReg s d v).tlbelo = s.tlbelo := rfl
@[simp] theorem writeReg_mmucr (s : State) (d : Reg) (v : Word) : (writeReg s d v).mmucr = s.mmucr := rfl
@[simp] theorem writeReg_itlb (s : State) (d : Reg) (v : Word) : (writeReg s d v).itlb = s.itlb := rfl
@[simp] theorem writeReg_dtlb (s : State) (d : Reg) (v : Word) : (writeReg s d v).dtlb = s.dtlb := rfl
@[simp] theorem writeReg_dbg (s : State) (d : Reg) (v : Word) : (writeReg s d v).dbg = s.dbg := rfl
@[simp] theorem writeReg_ras (s : State) (d : Reg) (v : Word) : (writeReg s d v).ras = s.ras := rfl
@[simp] theorem writeReg_cache (s : State) (d : Reg) (v : Word) : (writeReg s d v).cache = s.cache := rfl
@[simp] theorem writeReg_pending (s : State) (d : Reg) (v : Word) : (writeReg s d v).pending = s.pending := rfl
@[simp] theorem writeReg_writeBuffers (s : State) (d : Reg) (v : Word) : (writeReg s d v).writeBuffers = s.writeBuffers := rfl
@[simp] theorem writeReg_sleep (s : State) (d : Reg) (v : Word) : (writeReg s d v).sleep = s.sleep := rfl
@[simp] theorem writeReg_events (s : State) (d : Reg) (v : Word) : (writeReg s d v).events = s.events := rfl
@[simp] theorem writeReg_mem (s : State) (d : Reg) (v : Word) : (writeReg s d v).mem = s.mem := rfl
@[simp] theorem writeReg_windows (s : State) (d : Reg) (v : Word) : (writeReg s d v).windows = s.windows := rfl
@[simp] theorem writeReg_draws (s : State) (d : Reg) (v : Word) : (writeReg s d v).draws = s.draws := rfl

@[simp] theorem advance_params (s : State) (n : Nat) : (advance s n).params = s.params := rfl
@[simp] theorem advance_x (s : State) (n : Nat) : (advance s n).x = s.x := rfl
@[simp] theorem advance_sr (s : State) (n : Nat) : (advance s n).sr = s.sr := rfl
@[simp] theorem advance_evba (s : State) (n : Nat) : (advance s n).evba = s.evba := rfl
@[simp] theorem advance_rsrDbg (s : State) (n : Nat) : (advance s n).rsrDbg = s.rsrDbg := rfl
@[simp] theorem advance_rarDbg (s : State) (n : Nat) : (advance s n).rarDbg = s.rarDbg := rfl
@[simp] theorem advance_tlbehi (s : State) (n : Nat) : (advance s n).tlbehi = s.tlbehi := rfl
@[simp] theorem advance_tlbelo (s : State) (n : Nat) : (advance s n).tlbelo = s.tlbelo := rfl
@[simp] theorem advance_mmucr (s : State) (n : Nat) : (advance s n).mmucr = s.mmucr := rfl
@[simp] theorem advance_itlb (s : State) (n : Nat) : (advance s n).itlb = s.itlb := rfl
@[simp] theorem advance_dtlb (s : State) (n : Nat) : (advance s n).dtlb = s.dtlb := rfl
@[simp] theorem advance_dbg (s : State) (n : Nat) : (advance s n).dbg = s.dbg := rfl
@[simp] theorem advance_ras (s : State) (n : Nat) : (advance s n).ras = s.ras := rfl
@[simp] theorem advance_cache (s : State) (n : Nat) : (advance s n).cache = s.cache := rfl
@[simp] theorem advance_pending (s : State) (n : Nat) : (advance s n).pending = s.pending := rfl
@[simp] theorem advance_writeBuffers (s : State) (n : Nat) : (advance s n).writeBuffers = s.writeBuffers := rfl
@[simp] theorem advance_sleep (s : State) (n : Nat) : (advance s n).sleep = s.sleep := rfl
@[simp] theorem advance_events (s : State) (n : Nat) : (advance s n).events = s.events := rfl
@[simp] theorem advance_mem (s : State) (n : Nat) : (advance s n).mem = s.mem := rfl
@[simp] theorem advance_windows (s : State) (n : Nat) : (advance s n).windows = s.windows := rfl
@[simp] theorem advance_draws (s : State) (n : Nat) : (advance s n).draws = s.draws := rfl

@[simp] theorem redrawn_params (s : State) : (redrawn s).params = s.params := rfl
@[simp] theorem redrawn_x (s : State) : (redrawn s).x = s.x := rfl
@[simp] theorem redrawn_pc (s : State) : (redrawn s).pc = s.pc := rfl
@[simp] theorem redrawn_sr (s : State) : (redrawn s).sr = s.sr := rfl
@[simp] theorem redrawn_evba (s : State) : (redrawn s).evba = s.evba := rfl
@[simp] theorem redrawn_rsrDbg (s : State) : (redrawn s).rsrDbg = s.rsrDbg := rfl
@[simp] theorem redrawn_rarDbg (s : State) : (redrawn s).rarDbg = s.rarDbg := rfl
@[simp] theorem redrawn_tlbehi (s : State) : (redrawn s).tlbehi = s.tlbehi := rfl
@[simp] theorem redrawn_tlbelo (s : State) : (redrawn s).tlbelo = s.tlbelo := rfl
@[simp] theorem redrawn_mmucr (s : State) : (redrawn s).mmucr = s.mmucr := rfl
@[simp] theorem redrawn_itlb (s : State) : (redrawn s).itlb = s.itlb := rfl
@[simp] theorem redrawn_dtlb (s : State) : (redrawn s).dtlb = s.dtlb := rfl
@[simp] theorem redrawn_dbg (s : State) : (redrawn s).dbg = s.dbg := rfl
@[simp] theorem redrawn_ras (s : State) : (redrawn s).ras = s.ras := rfl
@[simp] theorem redrawn_cache (s : State) : (redrawn s).cache = s.cache := rfl
@[simp] theorem redrawn_pending (s : State) : (redrawn s).pending = s.pending := rfl
@[simp] theorem redrawn_writeBuffers (s : State) : (redrawn s).writeBuffers = s.writeBuffers := rfl
@[simp] theorem redrawn_sleep (s : State) : (redrawn s).sleep = s.sleep := rfl
@[simp] theorem redrawn_events (s : State) : (redrawn s).events = s.events := rfl
@[simp] theorem redrawn_mem (s : State) : (redrawn s).mem = s.mem := rfl
@[simp] theorem redrawn_windows (s : State) : (redrawn s).windows = s.windows := rfl
@[simp] theorem redrawn_draws (s : State) : (redrawn s).draws = s.draws + 1 := rfl

@[simp] theorem completeAccesses_params (s : State) (op : BitVec 8) : (completeAccesses s op).params = s.params := rfl
@[simp] theorem completeAccesses_x (s : State) (op : BitVec 8) : (completeAccesses s op).x = s.x := rfl
@[simp] theorem completeAccesses_pc (s : State) (op : BitVec 8) : (completeAccesses s op).pc = s.pc := rfl
@[simp] theorem completeAccesses_sr (s : State) (op : BitVec 8) : (completeAccesses s op).sr = s.sr := rfl
@[simp] theorem completeAccesses_evba (s : State) (op : BitVec 8) : (completeAccesses s op).evba = s.evba := rfl
@[simp] theorem completeAccesses_rsrDbg (s : State) (op : BitVec 8) : (completeAccesses s op).rsrDbg = s.rsrDbg := rfl
@[simp] theorem completeAccesses_rarDbg (s : State) (op : BitVec 8) : (completeAccesses s op).rarDbg = s.rarDbg := rfl
@[simp] theorem completeAccesses_tlbehi (s : State) (op : BitVec 8) : (completeAccesses s op).tlbehi = s.tlbehi := rfl
@[simp] theorem completeAccesses_tlbelo (s : State) (op : BitVec 8) : (completeAccesses s op).tlbelo = s.tlbelo := rfl
@[simp] theorem completeAccesses_mmucr (s : State) (op : BitVec 8) : (completeAccesses s op).mmucr = s.mmucr := rfl
@[simp] theorem completeAccesses_itlb (s : State) (op : BitVec 8) : (completeAccesses s op).itlb = s.itlb := rfl
@[simp] theorem completeAccesses_dtlb (s : State) (op : BitVec 8) : (completeAccesses s op).dtlb = s.dtlb := rfl
@[simp] theorem completeAccesses_dbg (s : State) (op : BitVec 8) : (completeAccesses s op).dbg = s.dbg := rfl
@[simp] theorem completeAccesses_ras (s : State) (op : BitVec 8) : (completeAccesses s op).ras = s.ras := rfl
@[simp] theorem completeAccesses_cache (s : State) (op : BitVec 8) : (completeAccesses s op).cache = s.cache := rfl
@[simp] theorem completeAccesses_sleep (s : State) (op : BitVec 8) : (completeAccesses s op).sleep = s.sleep := rfl
@[simp] theorem completeAccesses_events (s : State) (op : BitVec 8) : (completeAccesses s op).events = s.events := rfl
@[simp] theorem completeAccesses_mem (s : State) (op : BitVec 8) : (completeAccesses s op).mem = s.mem := rfl
@[simp] theorem completeAccesses_windows (s : State) (op : BitVec 8) : (completeAccesses s op).windows = s.windows := rfl
@[simp] theorem completeAccesses_draws (s : State) (op : BitVec 8) : (completeAccesses s op).draws = s.draws := rfl

@[simp] theorem writeSr_params (s : State) (v : Word) : (writeSr s v).params = s.params := rfl
@[simp] theorem writeSr_x (s : State) (v : Word) : (writeSr s v).x = s.x := rfl
@[simp] theorem writeSr_pc (s : State) (v : Word) : (writeSr s v).pc = s.pc := rfl
@[simp] theorem writeSr_evba (s : State) (v : Word) : (writeSr s v).evba = s.evba := rfl
@[simp] theorem writeSr_rsrDbg (s : State) (v : Word) : (writeSr s v).rsrDbg = s.rsrDbg := rfl
@[simp] theorem writeSr_rarDbg (s : State) (v : Word) : (writeSr s v).rarDbg = s.rarDbg := rfl
@[simp] theorem writeSr_tlbehi (s : State) (v : Word) : (writeSr s v).tlbehi = s.tlbehi := rfl
@[simp] theorem writeSr_tlbelo (s : State) (v : Word) : (writeSr s v).tlbelo = s.tlbelo := rfl
@[simp] theorem writeSr_mmucr (s : State) (v : Word) : (writeSr s v).mmucr = s.mmucr := rfl
@[simp] theorem writeSr_itlb (s : State) (v : Word) : (writeSr s v).itlb = s.itlb := rfl
@[simp] theorem writeSr_dtlb (s : State) (v : Word) : (writeSr s v).dtlb = s.dtlb := rfl
@[simp] theorem writeSr_dbg (s : State) (v : Word) : (writeSr s v).dbg = s.dbg := rfl
@[simp] theorem writeSr_ras (s : State) (v : Word) : (writeSr s v).ras = s.ras := rfl
@[simp] theorem writeSr_cache (s : State) (v : Word) : (writeSr s v).cache = s.cache := rfl
@[simp] theorem writeSr_pending (s : State) (v : Word) : (writeSr s v).pending = s.pending := rfl
@[simp] theorem writeSr_writeBuffers (s : State) (v : Word) : (writeSr s v).writeBuffers = s.writeBuffers := rfl
@[simp] theorem writeSr_sleep (s : State) (v : Word) : (writeSr s v).sleep = s.sleep := rfl
@[simp] theorem writeSr_events (s : State) (v : Word) : (writeSr s v).events = s.events := rfl
@[simp] theorem writeSr_mem (s : State) (v : Word) : (writeSr s v).mem = s.mem := rfl
@[simp] theorem writeSr_windows (s : State) (v : Word) : (writeSr s v).windows = s.windows := rfl
@[simp] theorem writeSr_draws (s : State) (v : Word) : (writeSr s v).draws = s.draws := rfl

@[simp] theorem writeDbg_params (s : State) (k : Fin 256) (v : Word) : (writeDbg s k v).params = s.params := rfl
@[simp] theorem writeDbg_x (s : State) (k : Fin 256) (v : Word) : (writeDbg s k v).x = s.x := rfl
@[simp] theorem writeDbg_pc (s : State) (k : Fin 256) (v : Word) : (writeDbg s k v).pc = s.pc := rfl
@[simp] theorem writeDbg_sr (s : State) (k : Fin 256) (v : Word) : (writeDbg s k v).sr = s.sr := rfl
@[simp] theorem writeDbg_evba (s : State) (k : Fin 256) (v : Word) : (writeDbg s k v).evba = s.evba := rfl
@[simp] theorem writeDbg_rsrDbg (s : State) (k : Fin 256) (v : Word) : (writeDbg s k v).rsrDbg = s.rsrDbg := rfl
@[simp] theorem writeDbg_rarDbg (s : State) (k : Fin 256) (v : Word) : (writeDbg s k v).rarDbg = s.rarDbg := rfl
@[simp] theorem writeDbg_tlbehi (s : State) (k : Fin 256) (v : Word) : (writeDbg s k v).tlbehi = s.tlbehi := rfl
@[simp] theorem writeDbg_tlbelo (s : State) (k : Fin 256) (v : Word) : (writeDbg s k v).tlbelo = s.tlbelo := rfl
@[simp] theorem writeDbg_mmucr (s : State) (k : Fin 256) (v : Word) : (writeDbg s k v).mmucr = s.mmucr := rfl
@[simp] theorem writeDbg_itlb (s : State) (k : Fin 256) (v : Word) : (writeDbg s k v).itlb = s.itlb := rfl
@[simp] theorem writeDbg_dtlb (s : State) (k : Fin 256) (v : Word) : (writeDbg s k v).dtlb = s.dtlb := rfl
@[simp] theorem writeDbg_ras (s : State) (k : Fin 256) (v : Word) : (writeDbg s k v).ras = s.ras := rfl
@[simp] theorem writeDbg_cache (s : State) (k : Fin 256) (v : Word) : (writeDbg s k v).cache = s.cache := rfl
@[simp] theorem writeDbg_pending (s : State) (k : Fin 256) (v : Word) : (writeDbg s k v).pending = s.pending := rfl
@[simp] theorem writeDbg_writeBuffers (s : State) (k : Fin 256) (v : Word) : (writeDbg s k v).writeBuffers = s.writeBuffers := rfl
@[simp] theorem writeDbg_sleep (s : State) (k : Fin 256) (v : Word) : (writeDbg s k v).sleep = s.sleep := rfl
@[simp] theorem writeDbg_events (s : State) (k : Fin 256) (v : Word) : (writeDbg s k v).events = s.events := rfl
@[simp] theorem writeDbg_mem (s : State) (k : Fin 256) (v : Word) : (writeDbg s k v).mem = s.mem := rfl
@[simp] theorem writeDbg_windows (s : State) (k : Fin 256) (v : Word) : (writeDbg s k v).windows = s.windows := rfl
@[simp] theorem writeDbg_draws (s : State) (k : Fin 256) (v : Word) : (writeDbg s k v).draws = s.draws := rfl

@[simp] theorem issued_params (s : State) : (issued s).params = s.params := rfl
@[simp] theorem issued_x (s : State) : (issued s).x = s.x := rfl
@[simp] theorem issued_pc (s : State) : (issued s).pc = s.pc := rfl
@[simp] theorem issued_sr (s : State) : (issued s).sr = s.sr := rfl
@[simp] theorem issued_evba (s : State) : (issued s).evba = s.evba := rfl
@[simp] theorem issued_rsrDbg (s : State) : (issued s).rsrDbg = s.rsrDbg := rfl
@[simp] theorem issued_rarDbg (s : State) : (issued s).rarDbg = s.rarDbg := rfl
@[simp] theorem issued_tlbehi (s : State) : (issued s).tlbehi = s.tlbehi := rfl
@[simp] theorem issued_tlbelo (s : State) : (issued s).tlbelo = s.tlbelo := rfl
@[simp] theorem issued_mmucr (s : State) : (issued s).mmucr = s.mmucr := rfl
@[simp] theorem issued_itlb (s : State) : (issued s).itlb = s.itlb := rfl
@[simp] theorem issued_dtlb (s : State) : (issued s).dtlb = s.dtlb := rfl
@[simp] theorem issued_dbg (s : State) : (issued s).dbg = s.dbg := rfl
@[simp] theorem issued_ras (s : State) : (issued s).ras = s.ras := rfl
@[simp] theorem issued_cache (s : State) : (issued s).cache = s.cache := rfl
@[simp] theorem issued_pending (s : State) : (issued s).pending = s.pending := rfl
@[simp] theorem issued_writeBuffers (s : State) : (issued s).writeBuffers = s.writeBuffers := rfl
@[simp] theorem issued_sleep (s : State) : (issued s).sleep = s.sleep := rfl
@[simp] theorem issued_events (s : State) : (issued s).events = s.events := rfl
@[simp] theorem issued_mem (s : State) : (issued s).mem = s.mem := rfl

@[simp] theorem afterFetch_params (s : State) : (afterFetch s).params = s.params := rfl
@[simp] theorem afterFetch_x (s : State) : (afterFetch s).x = s.x := rfl
@[simp] theorem afterFetch_pc (s : State) : (afterFetch s).pc = s.pc := rfl
@[simp] theorem afterFetch_sr (s : State) : (afterFetch s).sr = s.sr := rfl
@[simp] theorem afterFetch_evba (s : State) : (afterFetch s).evba = s.evba := rfl
@[simp] theorem afterFetch_rsrDbg (s : State) : (afterFetch s).rsrDbg = s.rsrDbg := rfl
@[simp] theorem afterFetch_rarDbg (s : State) : (afterFetch s).rarDbg = s.rarDbg := rfl
@[simp] theorem afterFetch_tlbehi (s : State) : (afterFetch s).tlbehi = s.tlbehi := rfl
@[simp] theorem afterFetch_tlbelo (s : State) : (afterFetch s).tlbelo = s.tlbelo := rfl
@[simp] theorem afterFetch_mmucr (s : State) : (afterFetch s).mmucr = s.mmucr := rfl
@[simp] theorem afterFetch_itlb (s : State) : (afterFetch s).itlb = s.itlb := rfl
@[simp] theorem afterFetch_dtlb (s : State) : (afterFetch s).dtlb = s.dtlb := rfl
@[simp] theorem afterFetch_dbg (s : State) : (afterFetch s).dbg = s.dbg := rfl
@[simp] theorem afterFetch_ras (s : State) : (afterFetch s).ras = s.ras := rfl
@[simp] theorem afterFetch_pending (s : State) : (afterFetch s).pending = s.pending := rfl
@[simp] theorem afterFetch_writeBuffers (s : State) : (afterFetch s).writeBuffers = s.writeBuffers := rfl
@[simp] theorem afterFetch_sleep (s : State) : (afterFetch s).sleep = s.sleep := rfl
@[simp] theorem afterFetch_events (s : State) : (afterFetch s).events = s.events := rfl
@[simp] theorem afterFetch_mem (s : State) : (afterFetch s).mem = s.mem := rfl
@[simp] theorem afterFetch_windows (s : State) : (afterFetch s).windows = s.windows := rfl

/-! ### Operations that write or not -/

@[simp] theorem writeSrBit_params (s : State) (i : Fin 32) (b : Bool) : (writeSrBit s i b).params = s.params := by unfold writeSrBit; split <;> rfl
@[simp] theorem writeSrBit_x (s : State) (i : Fin 32) (b : Bool) : (writeSrBit s i b).x = s.x := by unfold writeSrBit; split <;> rfl
@[simp] theorem writeSrBit_pc (s : State) (i : Fin 32) (b : Bool) : (writeSrBit s i b).pc = s.pc := by unfold writeSrBit; split <;> rfl
@[simp] theorem writeSrBit_evba (s : State) (i : Fin 32) (b : Bool) : (writeSrBit s i b).evba = s.evba := by unfold writeSrBit; split <;> rfl
@[simp] theorem writeSrBit_rsrDbg (s : State) (i : Fin 32) (b : Bool) : (writeSrBit s i b).rsrDbg = s.rsrDbg := by unfold writeSrBit; split <;> rfl
@[simp] theorem writeSrBit_rarDbg (s : State) (i : Fin 32) (b : Bool) : (writeSrBit s i b).rarDbg = s.rarDbg := by unfold writeSrBit; split <;> rfl
@[simp] theorem writeSrBit_tlbehi (s : State) (i : Fin 32) (b : Bool) : (writeSrBit s i b).tlbehi = s.tlbehi := by unfold writeSrBit; split <;> rfl
@[simp] theorem writeSrBit_tlbelo (s : State) (i : Fin 32) (b : Bool) : (writeSrBit s i b).tlbelo = s.tlbelo := by unfold writeSrBit; split <;> rfl
@[simp] theorem writeSrBit_mmucr (s : State) (i : Fin 32) (b : Bool) : (writeSrBit s i b).mmucr = s.mmucr := by unfold writeSrBit; split <;> rfl
@[simp] theorem writeSrBit_itlb (s : State) (i : Fin 32) (b : Bool) : (writeSrBit s i b).itlb = s.itlb := by unfold writeSrBit; split <;> rfl
@[simp] theorem writeSrBit_dtlb (s : State) (i : Fin 32) (b : Bool) : (writeSrBit s i b).dtlb = s.dtlb := by unfold writeSrBit; split <;> rfl
@[simp] theorem writeSrBit_dbg (s : State) (i : Fin 32) (b : Bool) : (writeSrBit s i b).dbg = s.dbg := by unfold writeSrBit; split <;> rfl
@[simp] theorem writeSrBit_ras (s : State) (i : Fin 32) (b : Bool) : (writeSrBit s i b).ras = s.ras := by unfold writeSrBit; split <;> rfl
@[simp] theorem writeSrBit_cache (s : State) (i : Fin 32) (b : Bool) : (writeSrBit s i b).cache = s.cache := by unfold writeSrBit; split <;> rfl
@[simp] theorem writeSrBit_pending (s : State) (i : Fin 32) (b : Bool) : (writeSrBit s i b).pending = s.pending := by unfold writeSrBit; split <;> rfl
@[simp] theorem writeSrBit_writeBuffers (s : State) (i : Fin 32) (b : Bool) : (writeSrBit s i b).writeBuffers = s.writeBuffers := by unfold writeSrBit; split <;> rfl
@[simp] theorem writeSrBit_sleep (s : State) (i : Fin 32) (b : Bool) : (writeSrBit s i b).sleep = s.sleep := by unfold writeSrBit; split <;> rfl
@[simp] theorem writeSrBit_events (s : State) (i : Fin 32) (b : Bool) : (writeSrBit s i b).events = s.events := by unfold writeSrBit; split <;> rfl
@[simp] theorem writeSrBit_mem (s : State) (i : Fin 32) (b : Bool) : (writeSrBit s i b).mem = s.mem := by unfold writeSrBit; split <;> rfl
@[simp] theorem writeSrBit_windows (s : State) (i : Fin 32) (b : Bool) : (writeSrBit s i b).windows = s.windows := by unfold writeSrBit; split <;> rfl
@[simp] theorem writeSrBit_draws (s : State) (i : Fin 32) (b : Bool) : (writeSrBit s i b).draws = s.draws := by unfold writeSrBit; split <;> rfl

@[simp] theorem openWindow_params (s : State) (t : HazardTarget) : (openWindow s t).params = s.params := by unfold openWindow; split <;> rfl
@[simp] theorem openWindow_x (s : State) (t : HazardTarget) : (openWindow s t).x = s.x := by unfold openWindow; split <;> rfl
@[simp] theorem openWindow_pc (s : State) (t : HazardTarget) : (openWindow s t).pc = s.pc := by unfold openWindow; split <;> rfl
@[simp] theorem openWindow_sr (s : State) (t : HazardTarget) : (openWindow s t).sr = s.sr := by unfold openWindow; split <;> rfl
@[simp] theorem openWindow_evba (s : State) (t : HazardTarget) : (openWindow s t).evba = s.evba := by unfold openWindow; split <;> rfl
@[simp] theorem openWindow_rsrDbg (s : State) (t : HazardTarget) : (openWindow s t).rsrDbg = s.rsrDbg := by unfold openWindow; split <;> rfl
@[simp] theorem openWindow_rarDbg (s : State) (t : HazardTarget) : (openWindow s t).rarDbg = s.rarDbg := by unfold openWindow; split <;> rfl
@[simp] theorem openWindow_tlbehi (s : State) (t : HazardTarget) : (openWindow s t).tlbehi = s.tlbehi := by unfold openWindow; split <;> rfl
@[simp] theorem openWindow_tlbelo (s : State) (t : HazardTarget) : (openWindow s t).tlbelo = s.tlbelo := by unfold openWindow; split <;> rfl
@[simp] theorem openWindow_mmucr (s : State) (t : HazardTarget) : (openWindow s t).mmucr = s.mmucr := by unfold openWindow; split <;> rfl
@[simp] theorem openWindow_itlb (s : State) (t : HazardTarget) : (openWindow s t).itlb = s.itlb := by unfold openWindow; split <;> rfl
@[simp] theorem openWindow_dtlb (s : State) (t : HazardTarget) : (openWindow s t).dtlb = s.dtlb := by unfold openWindow; split <;> rfl
@[simp] theorem openWindow_dbg (s : State) (t : HazardTarget) : (openWindow s t).dbg = s.dbg := by unfold openWindow; split <;> rfl
@[simp] theorem openWindow_ras (s : State) (t : HazardTarget) : (openWindow s t).ras = s.ras := by unfold openWindow; split <;> rfl
@[simp] theorem openWindow_cache (s : State) (t : HazardTarget) : (openWindow s t).cache = s.cache := by unfold openWindow; split <;> rfl
@[simp] theorem openWindow_pending (s : State) (t : HazardTarget) : (openWindow s t).pending = s.pending := by unfold openWindow; split <;> rfl
@[simp] theorem openWindow_writeBuffers (s : State) (t : HazardTarget) : (openWindow s t).writeBuffers = s.writeBuffers := by unfold openWindow; split <;> rfl
@[simp] theorem openWindow_sleep (s : State) (t : HazardTarget) : (openWindow s t).sleep = s.sleep := by unfold openWindow; split <;> rfl
@[simp] theorem openWindow_events (s : State) (t : HazardTarget) : (openWindow s t).events = s.events := by unfold openWindow; split <;> rfl
@[simp] theorem openWindow_mem (s : State) (t : HazardTarget) : (openWindow s t).mem = s.mem := by unfold openWindow; split <;> rfl
@[simp] theorem openWindow_draws (s : State) (t : HazardTarget) : (openWindow s t).draws = s.draws := by unfold openWindow; split <;> rfl

@[simp] theorem writeSelectedTlb_params (s : State) (i : Nat) (e : TlbEntry) : (writeSelectedTlb s i e).params = s.params := by unfold writeSelectedTlb; split <;> rfl
@[simp] theorem writeSelectedTlb_x (s : State) (i : Nat) (e : TlbEntry) : (writeSelectedTlb s i e).x = s.x := by unfold writeSelectedTlb; split <;> rfl
@[simp] theorem writeSelectedTlb_pc (s : State) (i : Nat) (e : TlbEntry) : (writeSelectedTlb s i e).pc = s.pc := by unfold writeSelectedTlb; split <;> rfl
@[simp] theorem writeSelectedTlb_sr (s : State) (i : Nat) (e : TlbEntry) : (writeSelectedTlb s i e).sr = s.sr := by unfold writeSelectedTlb; split <;> rfl
@[simp] theorem writeSelectedTlb_evba (s : State) (i : Nat) (e : TlbEntry) : (writeSelectedTlb s i e).evba = s.evba := by unfold writeSelectedTlb; split <;> rfl
@[simp] theorem writeSelectedTlb_rsrDbg (s : State) (i : Nat) (e : TlbEntry) : (writeSelectedTlb s i e).rsrDbg = s.rsrDbg := by unfold writeSelectedTlb; split <;> rfl
@[simp] theorem writeSelectedTlb_rarDbg (s : State) (i : Nat) (e : TlbEntry) : (writeSelectedTlb s i e).rarDbg = s.rarDbg := by unfold writeSelectedTlb; split <;> rfl
@[simp] theorem writeSelectedTlb_tlbehi (s : State) (i : Nat) (e : TlbEntry) : (writeSelectedTlb s i e).tlbehi = s.tlbehi := by unfold writeSelectedTlb; split <;> rfl
@[simp] theorem writeSelectedTlb_tlbelo (s : State) (i : Nat) (e : TlbEntry) : (writeSelectedTlb s i e).tlbelo = s.tlbelo := by unfold writeSelectedTlb; split <;> rfl
@[simp] theorem writeSelectedTlb_mmucr (s : State) (i : Nat) (e : TlbEntry) : (writeSelectedTlb s i e).mmucr = s.mmucr := by unfold writeSelectedTlb; split <;> rfl
@[simp] theorem writeSelectedTlb_dbg (s : State) (i : Nat) (e : TlbEntry) : (writeSelectedTlb s i e).dbg = s.dbg := by unfold writeSelectedTlb; split <;> rfl
@[simp] theorem writeSelectedTlb_ras (s : State) (i : Nat) (e : TlbEntry) : (writeSelectedTlb s i e).ras = s.ras := by unfold writeSelectedTlb; split <;> rfl
@[simp] theorem writeSelectedTlb_cache (s : State) (i : Nat) (e : TlbEntry) : (writeSelectedTlb s i e).cache = s.cache := by unfold writeSelectedTlb; split <;> rfl
@[simp] theorem writeSelectedTlb_pending (s : State) (i : Nat) (e : TlbEntry) : (writeSelectedTlb s i e).pending = s.pending := by unfold writeSelectedTlb; split <;> rfl
@[simp] theorem writeSelectedTlb_writeBuffers (s : State) (i : Nat) (e : TlbEntry) : (writeSelectedTlb s i e).writeBuffers = s.writeBuffers := by unfold writeSelectedTlb; split <;> rfl
@[simp] theorem writeSelectedTlb_sleep (s : State) (i : Nat) (e : TlbEntry) : (writeSelectedTlb s i e).sleep = s.sleep := by unfold writeSelectedTlb; split <;> rfl
@[simp] theorem writeSelectedTlb_events (s : State) (i : Nat) (e : TlbEntry) : (writeSelectedTlb s i e).events = s.events := by unfold writeSelectedTlb; split <;> rfl
@[simp] theorem writeSelectedTlb_mem (s : State) (i : Nat) (e : TlbEntry) : (writeSelectedTlb s i e).mem = s.mem := by unfold writeSelectedTlb; split <;> rfl
@[simp] theorem writeSelectedTlb_windows (s : State) (i : Nat) (e : TlbEntry) : (writeSelectedTlb s i e).windows = s.windows := by unfold writeSelectedTlb; split <;> rfl
@[simp] theorem writeSelectedTlb_draws (s : State) (i : Nat) (e : TlbEntry) : (writeSelectedTlb s i e).draws = s.draws := by unfold writeSelectedTlb; split <;> rfl

@[simp] theorem writeSrField_params (s : State) (f : SrField) (b : Bool) : (writeSrField s f b).params = s.params := by simp [writeSrField]
@[simp] theorem writeSrField_x (s : State) (f : SrField) (b : Bool) : (writeSrField s f b).x = s.x := by simp [writeSrField]
@[simp] theorem writeSrField_pc (s : State) (f : SrField) (b : Bool) : (writeSrField s f b).pc = s.pc := by simp [writeSrField]
@[simp] theorem writeSrField_evba (s : State) (f : SrField) (b : Bool) : (writeSrField s f b).evba = s.evba := by simp [writeSrField]
@[simp] theorem writeSrField_rsrDbg (s : State) (f : SrField) (b : Bool) : (writeSrField s f b).rsrDbg = s.rsrDbg := by simp [writeSrField]
@[simp] theorem writeSrField_rarDbg (s : State) (f : SrField) (b : Bool) : (writeSrField s f b).rarDbg = s.rarDbg := by simp [writeSrField]
@[simp] theorem writeSrField_tlbehi (s : State) (f : SrField) (b : Bool) : (writeSrField s f b).tlbehi = s.tlbehi := by simp [writeSrField]
@[simp] theorem writeSrField_tlbelo (s : State) (f : SrField) (b : Bool) : (writeSrField s f b).tlbelo = s.tlbelo := by simp [writeSrField]
@[simp] theorem writeSrField_mmucr (s : State) (f : SrField) (b : Bool) : (writeSrField s f b).mmucr = s.mmucr := by simp [writeSrField]
@[simp] theorem writeSrField_itlb (s : State) (f : SrField) (b : Bool) : (writeSrField s f b).itlb = s.itlb := by simp [writeSrField]
@[simp] theorem writeSrField_dtlb (s : State) (f : SrField) (b : Bool) : (writeSrField s f b).dtlb = s.dtlb := by simp [writeSrField]
@[simp] theorem writeSrField_dbg (s : State) (f : SrField) (b : Bool) : (writeSrField s f b).dbg = s.dbg := by simp [writeSrField]
@[simp] theorem writeSrField_ras (s : State) (f : SrField) (b : Bool) : (writeSrField s f b).ras = s.ras := by simp [writeSrField]
@[simp] theorem writeSrField_cache (s : State) (f : SrField) (b : Bool) : (writeSrField s f b).cache = s.cache := by simp [writeSrField]
@[simp] theorem writeSrField_pending (s : State) (f : SrField) (b : Bool) : (writeSrField s f b).pending = s.pending := by simp [writeSrField]
@[simp] theorem writeSrField_writeBuffers (s : State) (f : SrField) (b : Bool) : (writeSrField s f b).writeBuffers = s.writeBuffers := by simp [writeSrField]
@[simp] theorem writeSrField_sleep (s : State) (f : SrField) (b : Bool) : (writeSrField s f b).sleep = s.sleep := by simp [writeSrField]
@[simp] theorem writeSrField_events (s : State) (f : SrField) (b : Bool) : (writeSrField s f b).events = s.events := by simp [writeSrField]
@[simp] theorem writeSrField_mem (s : State) (f : SrField) (b : Bool) : (writeSrField s f b).mem = s.mem := by simp [writeSrField]
@[simp] theorem writeSrField_windows (s : State) (f : SrField) (b : Bool) : (writeSrField s f b).windows = s.windows := by simp [writeSrField]
@[simp] theorem writeSrField_draws (s : State) (f : SrField) (b : Bool) : (writeSrField s f b).draws = s.draws := by simp [writeSrField]

@[simp] theorem copyToCZ_params (s : State) (b : Bool) : (copyToCZ s b).params = s.params := by simp [copyToCZ]
@[simp] theorem copyToCZ_x (s : State) (b : Bool) : (copyToCZ s b).x = s.x := by simp [copyToCZ]
@[simp] theorem copyToCZ_pc (s : State) (b : Bool) : (copyToCZ s b).pc = s.pc := by simp [copyToCZ]
@[simp] theorem copyToCZ_evba (s : State) (b : Bool) : (copyToCZ s b).evba = s.evba := by simp [copyToCZ]
@[simp] theorem copyToCZ_rsrDbg (s : State) (b : Bool) : (copyToCZ s b).rsrDbg = s.rsrDbg := by simp [copyToCZ]
@[simp] theorem copyToCZ_rarDbg (s : State) (b : Bool) : (copyToCZ s b).rarDbg = s.rarDbg := by simp [copyToCZ]
@[simp] theorem copyToCZ_tlbehi (s : State) (b : Bool) : (copyToCZ s b).tlbehi = s.tlbehi := by simp [copyToCZ]
@[simp] theorem copyToCZ_tlbelo (s : State) (b : Bool) : (copyToCZ s b).tlbelo = s.tlbelo := by simp [copyToCZ]
@[simp] theorem copyToCZ_mmucr (s : State) (b : Bool) : (copyToCZ s b).mmucr = s.mmucr := by simp [copyToCZ]
@[simp] theorem copyToCZ_itlb (s : State) (b : Bool) : (copyToCZ s b).itlb = s.itlb := by simp [copyToCZ]
@[simp] theorem copyToCZ_dtlb (s : State) (b : Bool) : (copyToCZ s b).dtlb = s.dtlb := by simp [copyToCZ]
@[simp] theorem copyToCZ_dbg (s : State) (b : Bool) : (copyToCZ s b).dbg = s.dbg := by simp [copyToCZ]
@[simp] theorem copyToCZ_ras (s : State) (b : Bool) : (copyToCZ s b).ras = s.ras := by simp [copyToCZ]
@[simp] theorem copyToCZ_cache (s : State) (b : Bool) : (copyToCZ s b).cache = s.cache := by simp [copyToCZ]
@[simp] theorem copyToCZ_pending (s : State) (b : Bool) : (copyToCZ s b).pending = s.pending := by simp [copyToCZ]
@[simp] theorem copyToCZ_writeBuffers (s : State) (b : Bool) : (copyToCZ s b).writeBuffers = s.writeBuffers := by simp [copyToCZ]
@[simp] theorem copyToCZ_sleep (s : State) (b : Bool) : (copyToCZ s b).sleep = s.sleep := by simp [copyToCZ]
@[simp] theorem copyToCZ_events (s : State) (b : Bool) : (copyToCZ s b).events = s.events := by simp [copyToCZ]
@[simp] theorem copyToCZ_mem (s : State) (b : Bool) : (copyToCZ s b).mem = s.mem := by simp [copyToCZ]
@[simp] theorem copyToCZ_windows (s : State) (b : Bool) : (copyToCZ s b).windows = s.windows := by simp [copyToCZ]
@[simp] theorem copyToCZ_draws (s : State) (b : Bool) : (copyToCZ s b).draws = s.draws := by simp [copyToCZ]

@[simp] theorem writeLowFlags_params (s : State) (v : Word) : (writeLowFlags s v).params = s.params := by simp [writeLowFlags]
@[simp] theorem writeLowFlags_x (s : State) (v : Word) : (writeLowFlags s v).x = s.x := by simp [writeLowFlags]
@[simp] theorem writeLowFlags_pc (s : State) (v : Word) : (writeLowFlags s v).pc = s.pc := by simp [writeLowFlags]
@[simp] theorem writeLowFlags_evba (s : State) (v : Word) : (writeLowFlags s v).evba = s.evba := by simp [writeLowFlags]
@[simp] theorem writeLowFlags_rsrDbg (s : State) (v : Word) : (writeLowFlags s v).rsrDbg = s.rsrDbg := by simp [writeLowFlags]
@[simp] theorem writeLowFlags_rarDbg (s : State) (v : Word) : (writeLowFlags s v).rarDbg = s.rarDbg := by simp [writeLowFlags]
@[simp] theorem writeLowFlags_tlbehi (s : State) (v : Word) : (writeLowFlags s v).tlbehi = s.tlbehi := by simp [writeLowFlags]
@[simp] theorem writeLowFlags_tlbelo (s : State) (v : Word) : (writeLowFlags s v).tlbelo = s.tlbelo := by simp [writeLowFlags]
@[simp] theorem writeLowFlags_mmucr (s : State) (v : Word) : (writeLowFlags s v).mmucr = s.mmucr := by simp [writeLowFlags]
@[simp] theorem writeLowFlags_itlb (s : State) (v : Word) : (writeLowFlags s v).itlb = s.itlb := by simp [writeLowFlags]
@[simp] theorem writeLowFlags_dtlb (s : State) (v : Word) : (writeLowFlags s v).dtlb = s.dtlb := by simp [writeLowFlags]
@[simp] theorem writeLowFlags_dbg (s : State) (v : Word) : (writeLowFlags s v).dbg = s.dbg := by simp [writeLowFlags]
@[simp] theorem writeLowFlags_ras (s : State) (v : Word) : (writeLowFlags s v).ras = s.ras := by simp [writeLowFlags]
@[simp] theorem writeLowFlags_cache (s : State) (v : Word) : (writeLowFlags s v).cache = s.cache := by simp [writeLowFlags]
@[simp] theorem writeLowFlags_pending (s : State) (v : Word) : (writeLowFlags s v).pending = s.pending := by simp [writeLowFlags]
@[simp] theorem writeLowFlags_writeBuffers (s : State) (v : Word) : (writeLowFlags s v).writeBuffers = s.writeBuffers := by simp [writeLowFlags]
@[simp] theorem writeLowFlags_sleep (s : State) (v : Word) : (writeLowFlags s v).sleep = s.sleep := by simp [writeLowFlags]
@[simp] theorem writeLowFlags_events (s : State) (v : Word) : (writeLowFlags s v).events = s.events := by simp [writeLowFlags]
@[simp] theorem writeLowFlags_mem (s : State) (v : Word) : (writeLowFlags s v).mem = s.mem := by simp [writeLowFlags]
@[simp] theorem writeLowFlags_windows (s : State) (v : Word) : (writeLowFlags s v).windows = s.windows := by simp [writeLowFlags]
@[simp] theorem writeLowFlags_draws (s : State) (v : Word) : (writeLowFlags s v).draws = s.draws := by simp [writeLowFlags]

@[simp] theorem writeSysReg_params (s : State) (r : SysReg) (v : Word) : (writeSysReg s r v).params = s.params := by cases r <;> rfl
@[simp] theorem writeSysReg_x (s : State) (r : SysReg) (v : Word) : (writeSysReg s r v).x = s.x := by cases r <;> rfl
@[simp] theorem writeSysReg_pc (s : State) (r : SysReg) (v : Word) : (writeSysReg s r v).pc = s.pc := by cases r <;> rfl
@[simp] theorem writeSysReg_itlb (s : State) (r : SysReg) (v : Word) : (writeSysReg s r v).itlb = s.itlb := by cases r <;> rfl
@[simp] theorem writeSysReg_dtlb (s : State) (r : SysReg) (v : Word) : (writeSysReg s r v).dtlb = s.dtlb := by cases r <;> rfl
@[simp] theorem writeSysReg_dbg (s : State) (r : SysReg) (v : Word) : (writeSysReg s r v).dbg = s.dbg := by cases r <;> rfl
@[simp] theorem writeSysReg_ras (s : State) (r : SysReg) (v : Word) : (writeSysReg s r v).ras = s.ras := by cases r <;> rfl
@[simp] theorem writeSysReg_cache (s : State) (r : SysReg) (v : Word) : (writeSysReg s r v).cache = s.cache := by cases r <;> rfl
@[simp] theorem writeSysReg_pending (s : State) (r : SysReg) (v : Word) : (writeSysReg s r v).pending = s.pending := by cases r <;> rfl
@[simp] theorem writeSysReg_writeBuffers (s : State) (r : SysReg) (v : Word) : (writeSysReg s r v).writeBuffers = s.writeBuffers := by cases r <;> rfl
@[simp] theorem writeSysReg_sleep (s : State) (r : SysReg) (v : Word) : (writeSysReg s r v).sleep = s.sleep := by cases r <;> rfl
@[simp] theorem writeSysReg_events (s : State) (r : SysReg) (v : Word) : (writeSysReg s r v).events = s.events := by cases r <;> rfl
@[simp] theorem writeSysReg_mem (s : State) (r : SysReg) (v : Word) : (writeSysReg s r v).mem = s.mem := by cases r <;> rfl
@[simp] theorem writeSysReg_windows (s : State) (r : SysReg) (v : Word) : (writeSysReg s r v).windows = s.windows := by cases r <;> rfl
@[simp] theorem writeSysReg_draws (s : State) (r : SysReg) (v : Word) : (writeSysReg s r v).draws = s.draws := by cases r <;> rfl

@[simp] theorem takeBreakpoint_params (s : State) : (takeBreakpoint s).params = s.params := by simp [takeBreakpoint]
@[simp] theorem takeBreakpoint_x (s : State) : (takeBreakpoint s).x = s.x := by simp [takeBreakpoint]
@[simp] theorem takeBreakpoint_evba (s : State) : (takeBreakpoint s).evba = s.evba := by simp [takeBreakpoint]
@[simp] theorem takeBreakpoint_tlbehi (s : State) : (takeBreakpoint s).tlbehi = s.tlbehi := by simp [takeBreakpoint]
@[simp] theorem takeBreakpoint_tlbelo (s : State) : (takeBreakpoint s).tlbelo = s.tlbelo := by simp [takeBreakpoint]
@[simp] theorem takeBreakpoint_mmucr (s : State) : (takeBreakpoint s).mmucr = s.mmucr := by simp [takeBreakpoint]
@[simp] theorem takeBreakpoint_itlb (s : State) : (takeBreakpoint s).itlb = s.itlb := by simp [takeBreakpoint]
@[simp] theorem takeBreakpoint_dtlb (s : State) : (takeBreakpoint s).dtlb = s.dtlb := by simp [takeBreakpoint]
@[simp] theorem takeBreakpoint_dbg (s : State) : (takeBreakpoint s).dbg = s.dbg := by simp [takeBreakpoint]
@[simp] theorem takeBreakpoint_ras (s : State) : (takeBreakpoint s).ras = s.ras := by simp [takeBreakpoint]
@[simp] theorem takeBreakpoint_cache (s : State) : (takeBreakpoint s).cache = s.cache := by simp [takeBreakpoint]
@[simp] theorem takeBreakpoint_pending (s : State) : (takeBreakpoint s).pending = s.pending := by simp [takeBreakpoint]
@[simp] theorem takeBreakpoint_writeBuffers (s : State) : (takeBreakpoint s).writeBuffers = s.writeBuffers := by simp [takeBreakpoint]
@[simp] theorem takeBreakpoint_sleep (s : State) : (takeBreakpoint s).sleep = s.sleep := by simp [takeBreakpoint]
@[simp] theorem takeBreakpoint_events (s : State) : (takeBreakpoint s).events = s.events := by simp [takeBreakpoint]
@[simp] theorem takeBreakpoint_mem (s : State) : (takeBreakpoint s).mem = s.mem := by simp [takeBreakpoint]
@[simp] theorem takeBreakpoint_windows (s : State) : (takeBreakpoint s).windows = s.windows := by simp [takeBreakpoint]
@[simp] theorem takeBreakpoint_draws (s : State) : (takeBreakpoint s).draws = s.draws + 1 := by simp [takeBreakpoint]

/-! ### What the operations write -/

@[simp] theorem advance_pc (s : State) (n : Nat) : (advance s n).pc = s.pc + BitVec.ofNat 32 n := rfl
@[simp] theorem issued_windows (s : State) : (issued s).windows = ageWindows s.windows := rfl
@[simp] theorem issued_draws (s : State) : (issued s).draws = s.draws + 1 := rfl
@[simp] theorem openWindow_windows (s : State) (t : HazardTarget) :
    (openWindow s t).windows = if s.params.hazardWindow = 0 then s.windows else ⟨t, s.params.hazardWindow⟩ :: s.windows := by
  unfold openWindow; split <;> rfl
@[simp] theorem writeSr_sr (s : State) (v : Word) : (writeSr s v).sr = mergeBits s.params.srMask v s.sr := rfl
@[simp] theorem takeBreakpoint_pc (s : State) : (takeBreakpoint s).pc = s.evba + 0x1C := rfl
@[simp] theorem takeBreakpoint_rsrDbg (s : State) : (takeBreakpoint s).rsrDbg = readSr (redrawn s) := by simp [takeBreakpoint]
@[simp] theorem takeBreakpoint_rarDbg (s : State) : (takeBreakpoint s).rarDbg = breakpointReturnAddress s := by
  simp [takeBreakpoint]
@[simp] theorem completeAccesses_pending (s : State) (op : BitVec 8) :
    (completeAccesses s op).pending = s.pending.filter fun a => !syncCompletes s.params op a := rfl
@[simp] theorem completeAccesses_writeBuffers (s : State) (op : BitVec 8) :
    (completeAccesses s op).writeBuffers = if syncDrains s.params op then [] else s.writeBuffers := rfl

end Sys2Proof.Machine
end

