-- ==== Sys2Proof/Laws/Ops.lean ====
section
/-! SUPPORT. What each shared operation does, said once: registers, SR, memory, the hazard windows, and the issue of an
instruction. -/
namespace Sys2Proof.Machine

/-! ### General registers -/

/-- A register reads back what was written to it, and every other register is as before. -/
theorem readReg_writeReg (s : State) (d r : Reg) (v : Word) :
    readReg (writeReg s d v) r = if r = d then v else readReg s r := by
  unfold readReg writeReg
  simp only [Fin.getElem_fin, Vector.getElem_set]
  by_cases h : r = d
  · simp [h]
  · have : ¬ d.val = r.val := fun e => h (Fin.ext e.symm)
    simp [h, this]

/-- A debug register holds what was written to it, and every other one is as before. -/
theorem writeDbg_getElem (s : State) (k j : Fin 256) (v : Word) :
    (writeDbg s k v).dbg[j] = if j = k then v else s.dbg[j] := by
  unfold writeDbg
  simp only [Fin.getElem_fin, Vector.getElem_set]
  by_cases h : j = k
  · simp [h]
  · have : ¬ k.val = j.val := fun e => h (Fin.ext e.symm)
    simp [h, this]

/-- The debug register at byte address `4 * k` is number `k` (R37). -/
theorem dbgNumber_ofNat (k : Fin 256) : dbgNumber (BitVec.ofNat 10 (4 * k.val)) = k := by
  apply Fin.ext
  simp only [dbgNumber, RegAddr.number, BitVec.extractLsb', BitVec.toNat_ofNat]
  simp [Fin.ofNat]
  omega

/-! ### The status register -/

/-- Writing a bit of SR changes that bit, if it is implemented, and no other. -/
theorem writeSrBit_getLsbD (s : State) (i j : Fin 32) (b : Bool) :
    (writeSrBit s i b).sr.getLsbD j = if j = i ∧ Implemented s.params i then b else s.sr.getLsbD j := by
  simp only [Implemented]
  by_cases h : s.params.srMask.getLsbD i = true
  · simp only [writeSrBit, h, if_true, and_true, setBit_getLsbD]
  · rw [writeSrBit, if_neg h, if_neg fun hc => h hc.2]

/-- Writing a field of SR changes its bit, if it is implemented, and no other. -/
theorem writeSrField_getLsbD (s : State) (f : SrField) (j : Fin 32) (b : Bool) :
    (writeSrField s f b).sr.getLsbD j =
      if j = srPos s.params.srLayout f ∧ Implemented s.params j then b else s.sr.getLsbD j := by
  rw [writeSrField, writeSrBit_getLsbD]
  by_cases h : j = srPos s.params.srLayout f
  · subst h; rfl
  · simp [h]

/-- Writing the whole SR changes the implemented bits only. -/
theorem writeSr_getLsbD (s : State) (v : Word) (j : Fin 32) :
    (writeSr s v).sr.getLsbD j = if Implemented s.params j then v.getLsbD j else s.sr.getLsbD j := by
  rw [writeSr_sr, mergeBits_getLsbD]

/-- An implemented bit of SR reads as it is stored. -/
theorem srBit_of_implemented {s : State} {i : Fin 32} (h : Implemented s.params i) : srBit s i = s.sr.getLsbD i := by
  unfold srBit; simp [h]

/-- The implemented bits of the word an instruction reads from SR are as they are stored. -/
theorem readSr_getLsbD {s : State} {i : Fin 32} (h : Implemented s.params i) :
    (readSr s).getLsbD i = s.sr.getLsbD i := by
  unfold readSr; rw [mergeBits_getLsbD]; simp [h]

/-- What taking the breakpoint trap leaves in SR, bit by bit: the nine fields are written in the order of R141, a bit that
holds no state is not written. -/
theorem takeBreakpoint_sr_getLsbD (s : State) {p : Params} (hp : s.params = p) (i : Fin 32) :
    (takeBreakpoint s).sr.getLsbD i =
      if i = p.srLayout.gm ∧ Implemented p i then true
      else if i = p.srLayout.em ∧ Implemented p i then true
      else if i = p.srLayout.dm ∧ Implemented p i then true
      else if i = p.srLayout.m0 ∧ Implemented p i then false
      else if i = p.srLayout.m1 ∧ Implemented p i then true
      else if i = p.srLayout.m2 ∧ Implemented p i then true
      else if i = p.srLayout.d ∧ Implemented p i then true
      else if i = p.srLayout.j ∧ Implemented p i then p.bkptJ
      else if i = p.srLayout.r ∧ Implemented p i then p.bkptR
      else s.sr.getLsbD i := by
  subst hp
  simp only [takeBreakpoint, writeSrField_getLsbD, writeSrField_params, srPos]
  rfl

/-! ### Sleep and synchronisation -/

/-- An access is pending after a SYNC when it was before and `SyncOp(op8)` does not cover it (R83, R190). -/
theorem mem_completeAccesses {s : State} {op : BitVec 8} {a : MemAccess} :
    a ∈ (completeAccesses s op).pending ↔ a ∈ s.pending ∧ syncCompletes s.params op a = false := by simp

/-- Under the full barrier, the spec's default, no access is pending after a SYNC and the write buffers are empty (R83, D20). -/
theorem completeAccesses_fullBarrier {s : State} (op : BitVec 8) (h : s.params.syncOp = fullBarrier) :
    (completeAccesses s op).pending = [] ∧ (completeAccesses s op).writeBuffers = [] := by
  simp [syncCompletes, syncDrains, h, fullBarrier, evalBool]

/-! ### The TLBs -/

/-- The addressed entry is the one at IRP in the instruction TLB or at DRP in the data TLB, by the selector (R191, R194). -/
theorem addressedEntry_eq (s : State) :
    addressedEntry s =
      if getField s.params.mmuLayout.itlb s.tlbehi = 1 then s.itlb[getField s.params.mmuLayout.irp s.mmucr]?
      else s.dtlb[getField s.params.mmuLayout.drp s.mmucr]? := by
  unfold addressedEntry selectedTlb tlbIndex tlbPointerField itlbSelected
  by_cases h : getField s.params.mmuLayout.itlb s.tlbehi = 1 <;> simp [h]

/-! ### Issue -/

/-- An instruction passes the checks of R140 exactly when it is ready. -/
theorem check_eq_none_iff (i : Instr) (s : State) : check i s = none ↔ Ready i s := by
  have hz : hazard s i = false ↔ ∀ w ∈ s.windows, 0 < w.left → dependsOn s.params i w.target = false := by
    simp [hazard]
  have hp : (privileged s.params i && inApplicationMode s) = false ↔
      (privClass i ∈ s.params.privSet → mode s ≠ 0b000#3) := by
    by_cases h : privClass i ∈ s.params.privSet <;> simp [privileged, inApplicationMode, h]
  have ha : usesAliasedPc s.params i = false ↔ (s.params.r15AliasesPc = true → (15 : Reg) ∉ regOperands i) := by
    by_cases h : s.params.r15AliasesPc = true <;> simp [usesAliasedPc, h]
  unfold check Ready Instr.WellFormed
  rw [← hz, ← hp, ← ha]
  cases i.wellFormed <;> cases usesAliasedPc s.params i <;> cases privileged s.params i && inApplicationMode s <;>
    cases hazard s i <;> simp

/-- A ready instruction runs its effect. -/
theorem issue_of_ready {i : Instr} {s : State} (h : Ready i s)
    (effect : State → Host.Outcome State Fault Refusal) : issue i s effect = effect (issued s) := by
  unfold issue; rw [(check_eq_none_iff i s).mpr h]

/-- An instruction that reaches a next state was ready, and its effect gives that state. -/
theorem issue_next {i : Instr} {s t : State} {effect : State → Host.Outcome State Fault Refusal}
    (h : issue i s effect = .next t) : Ready i s ∧ effect (issued s) = .next t := by
  unfold issue at h
  split at h
  · cases h
  · exact ⟨(check_eq_none_iff i s).mp ‹_›, h⟩

/-- A completed instruction moves pc on by the length the parameters give it. -/
theorem complete_eq {i : Instr} {u : State} {p : Params} (h : u.params = p) :
    complete i u = .next (advance u (i.ilen p.encoding)) := by rw [complete, h]

/-- A completed instruction leaves pc at the following instruction. -/
theorem complete_next {i : Instr} {s t : State} (h : complete i s = .next t) : t = advance s (i.ilen s.params.encoding) := by
  unfold complete at h; cases h; rfl

/-- A state with the parameters and the pc of another, advanced by an instruction's length, has moved on by it (R24). -/
theorem pcMovesOn_advance {i : Instr} {n : Nat} {s u : State} (hpc : u.pc = s.pc) (hn : i.ilen defaultEncoding = n) :
    PcMovesOn i n s (advance u (i.ilen s.params.encoding)) :=
  ⟨by rw [advance_pc, hpc], fun h => by rw [advance_pc, hpc, h, hn]⟩

/-! ### Hazard windows -/

/-- A window after one more instruction comes from an older one that covered more than that instruction. -/
theorem mem_ageWindows {w : HazardWindow} {ws : List HazardWindow} :
    w ∈ ageWindows ws ↔ 0 < w.left ∧ (⟨w.target, w.left + 1⟩ : HazardWindow) ∈ ws := by
  unfold ageWindows
  simp only [List.mem_filter, List.mem_map, decide_eq_true_eq]
  constructor
  · rintro ⟨⟨v, hv, rfl⟩, hpos⟩
    refine ⟨hpos, ?_⟩
    have : v.left - 1 + 1 = v.left := by simp at hpos; omega
    simpa [this] using hv
  · rintro ⟨hpos, hw⟩
    exact ⟨⟨_, hw, by simp⟩, hpos⟩

/-! ### Memory -/

/-- Every address of a canonical memory that begins with a cell is above that cell's, but its own. -/
theorem Memory.wf_cons {c : Host.Cell} {m : Memory} (h : Memory.wf (c :: m) = true) :
    c.1 < 2 ^ 32 ∧ Memory.wf m = true ∧ ∀ d ∈ m, c.1 < d.1 := by
  induction m generalizing c with
  | nil => simpa [Memory.wf] using h
  | cons d rest ih =>
    simp only [Memory.wf, Bool.and_eq_true, decide_eq_true_eq] at h
    obtain ⟨hd, _, hall⟩ := ih h.2
    refine ⟨by omega, h.2, ?_⟩
    intro e he
    rcases List.mem_cons.mp he with rfl | he
    · exact h.1
    · exact lt_trans h.1 (hall e he)

/-- A memory is canonical when its first address is below all the others, which are canonical. -/
theorem Memory.wf_of_cons {c : Host.Cell} {m : Memory} (hc : c.1 < 2 ^ 32) (hm : Memory.wf m = true)
    (h : ∀ d ∈ m, c.1 < d.1) : Memory.wf (c :: m) = true := by
  cases m with
  | nil => simpa [Memory.wf] using hc
  | cons d rest => simp [Memory.wf, hm, h d (by simp)]

/-- Every cell after a byte is written is the written one or an old one. -/
theorem mem_writeByte {m : Memory} {a : Nat} {b : Byte} {c : Host.Cell} (h : c ∈ writeByte m a b) :
    c = (a, b) ∨ c ∈ m := by
  induction m with
  | nil => simpa [writeByte] using h
  | cons d rest ih =>
    unfold writeByte at h
    split at h
    · simpa using h
    · split at h
      · rcases List.mem_cons.mp h with h | h <;> simp [h]
      · rcases List.mem_cons.mp h with h | h
        · simp [h]
        · rcases ih h with h | h <;> simp [h]

/-- Writing a byte keeps the canonical form. -/
theorem writeByte_wf {m : Memory} {a : Nat} (b : Byte) (ha : a < 2 ^ 32) (h : Memory.wf m = true) :
    Memory.wf (writeByte m a b) = true := by
  induction m with
  | nil => simpa [writeByte, Memory.wf] using ha
  | cons c rest ih =>
    obtain ⟨hc, hr, hall⟩ := Memory.wf_cons h
    unfold writeByte
    split
    · rename_i hlt
      refine Memory.wf_of_cons ha h ?_
      intro d hd
      rcases List.mem_cons.mp hd with rfl | hd
      · exact hlt
      · exact lt_trans hlt (hall d hd)
    · split
      · rename_i heq
        exact Memory.wf_of_cons ha hr (by simpa [heq] using hall)
      · refine Memory.wf_of_cons hc (ih hr) ?_
        intro d hd
        rcases mem_writeByte hd with rfl | hd
        · simp; omega
        · exact hall d hd

/-- Writing bytes keeps the canonical form. -/
theorem writeBytes_wf {m : Memory} (addr : Word) (bs : List Byte) (h : Memory.wf m = true) :
    Memory.wf (writeBytes m addr bs) = true := by
  induction bs generalizing m addr with
  | nil => exact h
  | cons b bs ih => exact ih _ (writeByte_wf b addr.isLt h)

/-- `MemWrite` keeps the canonical form. -/
theorem memWrite_wf {s : State} (addr : Word) (n v : Nat) (h : Memory.wf s.mem = true) :
    Memory.wf (memWrite s addr n v).mem = true := writeBytes_wf addr _ h

/-- A byte read after a byte was written is the one written, or the old one. -/
theorem readByte_writeByte (m : Memory) (a a' : Nat) (b : Byte) :
    readByte (writeByte m a b) a' = if a' = a then some b else readByte m a' := by
  unfold readByte
  induction m with
  | nil =>
    by_cases h : a' = a
    · simp [writeByte, h]
    · simp [writeByte, List.lookup_cons, beq_eq_false_iff_ne.mpr h, h]
  | cons c rest ih =>
    obtain ⟨ca, cb⟩ := c
    unfold writeByte
    split
    · by_cases h : a' = a
      · simp [h]
      · simp [List.lookup_cons, beq_eq_false_iff_ne.mpr h, h]
    · split
      · rename_i heq
        simp only at heq
        subst heq
        by_cases h : a' = a
        · simp [h]
        · simp [List.lookup_cons, beq_eq_false_iff_ne.mpr h, h]
      · rename_i hne
        by_cases h : a' = ca
        · subst h
          have : ¬ a' = a := fun e => hne e.symm
          simp [this]
        · simp [List.lookup_cons, beq_eq_false_iff_ne.mpr h, ih]

/-- Bytes that are read: the first, and the rest from the next address on. -/
theorem readBytes_succ {m : Memory} {a : Word} {n : Nat} {bs : List Byte} :
    readBytes m a (n + 1) = some bs ↔
      ∃ b rest, readByte m a.toNat = some b ∧ readBytes m (a + 1) n = some rest ∧ bs = b :: rest := by
  simp only [readBytes]
  cases h1 : readByte m a.toNat <;> cases h2 : readBytes m (a + 1) n <;> simp [eq_comm]

/-- The value of two bytes is the halfword they make (R74). -/
theorem ofNat_valueOfBytes (bigEndian : Bool) (a b : Byte) :
    BitVec.ofNat 16 (valueOfBytes bigEndian [a, b]) = halfOfBytes bigEndian a b := by
  cases bigEndian <;>
    simp only [valueOfBytes, halfOfBytes, if_true, Bool.false_eq_true, if_false, List.reverse_cons, List.reverse_nil,
      List.nil_append, List.cons_append, List.foldl, Nat.zero_mul, Nat.zero_add] <;>
    apply BitVec.eq_of_toNat_eq
  · rw [BitVec.toNat_append, BitVec.toNat_ofNat, ← Nat.shiftLeft_add_eq_or_of_lt a.isLt, Nat.shiftLeft_eq]; omega
  · rw [BitVec.toNat_append, BitVec.toNat_ofNat, ← Nat.shiftLeft_add_eq_or_of_lt b.isLt, Nat.shiftLeft_eq]; omega

end Sys2Proof.Machine
end

