-- ==== Sys2Proof/Laws/Exec.lean ====
section
/-! SUPPORT. What each instruction does once it is ready, one equation per instruction, and what any instruction that
reaches a next state has done. The provers cite these and need not unfold a meaning. -/
namespace Sys2Proof.Machine

/-! ### A ready instruction, one equation each -/

/-- breakpoint when it is ready (R141). -/
theorem exec_breakpoint_of_ready {s : State} (h : Ready (.breakpoint) s) :
    exec (.breakpoint) s = .next (if breakpointTraps (issued s) then takeBreakpoint (issued s) else advance (issued s) 2) := by
  rw [exec, execBreakpoint, issue_of_ready h]; rfl

/-- csrf when it is ready (R144). -/
theorem exec_csrf_of_ready {s : State} (bp : Fin 32) (h : Ready (.csrf bp) s) :
    exec (.csrf bp) s = .next (advance (writeSrBit (issued s) bp false) (Instr.ilen (.csrf bp) s.params.encoding)) := by
  rw [exec, execCsrf, issue_of_ready h]; exact complete_eq (by simp)

/-- csrfcz when it is ready (R145). -/
theorem exec_csrfcz_of_ready {s : State} (bp : Fin 32) (h : Ready (.csrfcz bp) s) :
    exec (.csrfcz bp) s = .next (advance (copyToCZ (issued s) (srBit (issued s) bp))
      (Instr.ilen (.csrfcz bp) s.params.encoding)) := by
  rw [exec, execCsrfcz, issue_of_ready h]; exact complete_eq (by simp)

/-- frs when it is ready (R146). -/
theorem exec_frs_of_ready {s : State} (h : Ready (.frs) s) :
    exec (.frs) s = .next (advance { issued s with ras := [] } (Instr.ilen (.frs) s.params.encoding)) := by
  rw [exec, execFrs, issue_of_ready h]; exact complete_eq (by simp)

/-- mfdr when it is ready (R147). -/
theorem exec_mfdr_of_ready {s : State} (d : Reg) (a : RegAddr) (h : Ready (.mfdr d a) s) :
    exec (.mfdr d a) s = .next (advance (writeReg (issued s) d (readDbg (issued s) (dbgNumber a)))
      (Instr.ilen (.mfdr d a) s.params.encoding)) := by
  rw [exec, execMfdr, issue_of_ready h]; exact complete_eq (by simp)

/-- mtdr when it is ready (R149). -/
theorem exec_mtdr_of_ready {s : State} (a : RegAddr) (r : Reg) (h : Ready (.mtdr a r) s) :
    exec (.mtdr a r) s = .next (advance (openWindow (writeDbg (issued s) (dbgNumber a) (readReg s r)) (.dbg (dbgNumber a)))
      (Instr.ilen (.mtdr a r) s.params.encoding)) := by
  rw [exec, execMtdr, issue_of_ready h]; exact complete_eq (by simp)

/-- musfr when it is ready (R151). -/
theorem exec_musfr_of_ready {s : State} (r : Reg) (h : Ready (.musfr r) s) :
    exec (.musfr r) s = .next (advance (writeLowFlags (issued s) (readReg s r))
      (Instr.ilen (.musfr r) s.params.encoding)) := by
  rw [exec, execMusfr, issue_of_ready h]; exact complete_eq (by simp)

/-- mustr when it is ready (R152). -/
theorem exec_mustr_of_ready {s : State} (d : Reg) (h : Ready (.mustr d) s) :
    exec (.mustr d) s = .next (advance (writeReg (issued s) d (zext32 (lowFlags (issued s))))
      (Instr.ilen (.mustr d) s.params.encoding)) := by
  rw [exec, execMustr, issue_of_ready h]; exact complete_eq (by simp)

/-- nop when it is ready (R180). -/
theorem exec_nop_of_ready {s : State} (h : Ready (.nop) s) :
    exec (.nop) s = .next (advance (issued s) (Instr.ilen (.nop) s.params.encoding)) := by
  rw [exec, execNop, issue_of_ready h]; exact complete_eq (by simp)

/-- pref when it is ready (R182). -/
theorem exec_pref_of_ready {s : State} (p : Reg) (disp : BitVec 16) (h : Ready (.pref p disp) s) :
    exec (.pref p disp) s = .next (advance { issued s with cache := Config.cachePrefetch (indexedAddress s p disp) s.cache (s.draws + 1) }
      (Instr.ilen (.pref p disp) s.params.encoding)) := by
  rw [exec, execPref, issue_of_ready h]; exact complete_eq (by simp)

/-- sleep when it is ready (R184). -/
theorem exec_sleep_of_ready {s : State} (op : BitVec 8) (h : Ready (.sleep op) s) :
    exec (.sleep op) s = .next (advance { (if op.getLsbD 7 then writeSrField (issued s) .gm false else issued s) with sleep := some op }
      (Instr.ilen (.sleep op) s.params.encoding)) := by
  rw [exec, execSleep, issue_of_ready h]; exact complete_eq (by simp only []; split <;> simp)

/-- srCond when it is ready (R186). -/
theorem exec_srCond_of_ready {s : State} (cond : Cond) (d : Reg) (h : Ready (.srCond cond d) s) :
    exec (.srCond cond d) s = .next (advance (writeReg (issued s) d (if condHolds (issued s) cond then 1 else 0))
      (Instr.ilen (.srCond cond d) s.params.encoding)) := by
  rw [exec, execSrCond, issue_of_ready h]; exact complete_eq (by simp)

/-- ssrf when it is ready (R188). -/
theorem exec_ssrf_of_ready {s : State} (bp : Fin 32) (h : Ready (.ssrf bp) s) :
    exec (.ssrf bp) s = .next (advance (writeSrBit (issued s) bp true) (Instr.ilen (.ssrf bp) s.params.encoding)) := by
  rw [exec, execSsrf, issue_of_ready h]; exact complete_eq (by simp)

/-- sync when it is ready (R190). -/
theorem exec_sync_of_ready {s : State} (op : BitVec 8) (h : Ready (.sync op) s) :
    exec (.sync op) s = .next (advance (completeAccesses (issued s) op) (Instr.ilen (.sync op) s.params.encoding)) := by
  rw [exec, execSync, issue_of_ready h]; exact complete_eq (by simp)

/-- tlbs when it is ready (R192). -/
theorem exec_tlbs_of_ready {s : State} (h : Ready (.tlbs) s) :
    exec (.tlbs) s = .next (advance { issued s with mmucr := searchedMmucr (issued s) }
      (Instr.ilen (.tlbs) s.params.encoding)) := by
  rw [exec, execTlbs, issue_of_ready h]; exact complete_eq (by simp)

/-- cache when it is ready and the policy is nop (R143). -/
theorem exec_cache_of_ready {s : State} (p : Reg) (disp : BitVec 11) (op : BitVec 5) (h : Ready (.cache p disp op) s)
    (hp : s.params.cachePolicy = .nop) :
    exec (.cache p disp op) s = .next (advance { issued s with
      cache := Config.cacheCommand (cacheSelector op) (cacheCommandCode op) (indexedAddress s p disp) s.cache } (Instr.ilen (.cache p disp op) s.params.encoding)) := by
  rw [exec, execCache, issue_of_ready h]; simp only [issued_params, hp]; exact complete_eq (by simp)

/-- mfsr when it is ready and its address is mapped (R148). -/
theorem exec_mfsr_of_ready {s : State} (d : Reg) (a : RegAddr) (r : SysReg) (h : Ready (.mfsr d a) s)
    (hr : sysRegAt s a = some r) :
    exec (.mfsr d a) s = .next (advance (writeReg (issued s) d (readSysReg (issued s) r))
      (Instr.ilen (.mfsr d a) s.params.encoding)) := by
  have hr' : sysRegAt (issued s) a = some r := hr
  rw [exec, execMfsr, issue_of_ready h]; simp only [hr']; exact complete_eq (by simp)

/-- mtsr when it is ready, its address is mapped and the value does not turn translation on (R150, R80). -/
theorem exec_mtsr_of_ready {s : State} (a : RegAddr) (r : Reg) (t : SysReg) (h : Ready (.mtsr a r) s)
    (ht : sysRegAt s a = some t) (hm : t = .mmucr → mmuEnabled s.params (readReg s r) = false) :
    exec (.mtsr a r) s = .next (advance (openWindow (writeSysReg (issued s) t (readReg s r)) (.sys t))
      (Instr.ilen (.mtsr a r) s.params.encoding)) := by
  have ht' : sysRegAt (issued s) a = some t := ht
  have hn : ¬ (t = .mmucr ∧ mmuEnabled (issued s).params (readReg (issued s) r) = true) := by
    rintro ⟨h1, h2⟩
    have h3 := hm h1
    rw [show mmuEnabled (issued s).params (readReg (issued s) r) = mmuEnabled s.params (readReg s r) from rfl, h3] at h2
    cases h2
  rw [exec, execMtsr, issue_of_ready h]; simp only [ht', if_neg hn]; exact complete_eq (by simp)

/-- tlbr when it is ready and the pointer is inside the TLB (R191). -/
theorem exec_tlbr_of_ready {s : State} (e : TlbEntry) (h : Ready .tlbr s) (he : addressedEntry s = some e) :
    exec .tlbr s = .next (advance { issued s with tlbehi := e.hi, tlbelo := e.lo }
      (Instr.ilen (.tlbr) s.params.encoding)) := by
  have he' : addressedEntry (issued s) = some e := he
  rw [exec, execTlbr, issue_of_ready h]; simp only [he']; exact complete_eq (by simp)

/-- tlbw when it is ready and the pointer is inside the TLB (R194). -/
theorem exec_tlbw_of_ready {s : State} (e : TlbEntry) (h : Ready .tlbw s) (he : addressedEntry s = some e) :
    exec .tlbw s = .next (advance (writeSelectedTlb (issued s) (tlbIndex s) ⟨s.tlbehi, s.tlbelo⟩)
      (Instr.ilen (.tlbw) s.params.encoding)) := by
  have he' : addressedEntry (issued s) = some e := he
  rw [exec, execTlbw, issue_of_ready h]; simp only [he']; exact complete_eq (by simp)

/-! ### What any instruction that reaches a next state has done -/

/-- The state an instruction completes in before pc is advanced, for the instructions other than BREAKPOINT. -/
inductive Effect (s : State) : Instr → State → Prop where

  | csrf (bp : Fin 32) : Effect s (.csrf bp) (writeSrBit (issued s) bp false)
  | csrfcz (bp : Fin 32) : Effect s (.csrfcz bp) (copyToCZ (issued s) (srBit (issued s) bp))
  | frs : Effect s (.frs) { issued s with ras := [] }
  | mfdr (d : Reg) (a : RegAddr) : Effect s (.mfdr d a) (writeReg (issued s) d (readDbg (issued s) (dbgNumber a)))
  | mtdr (a : RegAddr) (r : Reg) : Effect s (.mtdr a r) (openWindow (writeDbg (issued s) (dbgNumber a) (readReg s r)) (.dbg (dbgNumber a)))
  | musfr (r : Reg) : Effect s (.musfr r) (writeLowFlags (issued s) (readReg s r))
  | mustr (d : Reg) : Effect s (.mustr d) (writeReg (issued s) d (zext32 (lowFlags (issued s))))
  | nop : Effect s (.nop) (issued s)
  | pref (p : Reg) (disp : BitVec 16) : Effect s (.pref p disp) { issued s with cache := Config.cachePrefetch (indexedAddress s p disp) s.cache (s.draws + 1) }
  | sleep (op : BitVec 8) : Effect s (.sleep op) { (if op.getLsbD 7 then writeSrField (issued s) .gm false else issued s) with sleep := some op }
  | srCond (cond : Cond) (d : Reg) : Effect s (.srCond cond d) (writeReg (issued s) d (if condHolds (issued s) cond then 1 else 0))
  | ssrf (bp : Fin 32) : Effect s (.ssrf bp) (writeSrBit (issued s) bp true)
  | sync (op : BitVec 8) : Effect s (.sync op) (completeAccesses (issued s) op)
  | tlbs : Effect s (.tlbs) { issued s with mmucr := searchedMmucr (issued s) }
  | cache (p : Reg) (disp : BitVec 11) (op : BitVec 5) : Effect s (.cache p disp op) { issued s with
      cache := Config.cacheCommand (cacheSelector op) (cacheCommandCode op) (indexedAddress s p disp) s.cache }
  | mfsr (d : Reg) (a : RegAddr) (r : SysReg) (h : sysRegAt s a = some r) :
      Effect s (.mfsr d a) (writeReg (issued s) d (readSysReg (issued s) r))
  | mtsr (a : RegAddr) (r : Reg) (t : SysReg) (h : sysRegAt s a = some t)
      (hm : t = .mmucr → mmuEnabled s.params (readReg s r) = false) :
      Effect s (.mtsr a r) (openWindow (writeSysReg (issued s) t (readReg s r)) (.sys t))
  | tlbr (e : TlbEntry) (h : addressedEntry s = some e) :
      Effect s .tlbr { issued s with tlbehi := e.hi, tlbelo := e.lo }
  | tlbw (e : TlbEntry) (h : addressedEntry s = some e) :
      Effect s .tlbw (writeSelectedTlb (issued s) (tlbIndex s) ⟨s.tlbehi, s.tlbelo⟩)

/-- No effect changes a parameter. -/
theorem Effect.params {s u : State} {i : Instr} (h : Effect s i u) : u.params = s.params := by
  cases h <;> simp
  split <;> simp

/-- An instruction whose effect took place in `u` and that completed has moved pc on by the length its own parameters give it. -/
theorem Effect.complete_next {s u t : State} {i : Instr} (h : Effect s i u) (ht : complete i u = .next t) :
    t = advance u (i.ilen s.params.encoding) := by
  rw [Machine.complete_next ht, h.params]

/-- An instruction that reaches a next state was ready, and either it was a BREAKPOINT that trapped, or it completed:
its effect took place and pc moved to the following instruction. -/
theorem exec_next {i : Instr} {s t : State} (h : exec i s = .next t) :
    Ready i s ∧
      ((i = .breakpoint ∧ breakpointTraps (issued s) = true ∧ t = takeBreakpoint (issued s)) ∨
        ∃ u, (Effect s i u ∨ (i = .breakpoint ∧ breakpointTraps (issued s) = false ∧ u = issued s)) ∧
          t = advance u (i.ilen s.params.encoding)) := by
  cases i <;>
    simp only [exec, execBreakpoint, execCache, execCsrf, execCsrfcz, execFrs, execMfdr, execMfsr, execMtdr, execMtsr, execMusfr,
      execMustr, execNop, execPref, execSleep, execSrCond, execSsrf, execSync, execTlbr, execTlbs, execTlbw] at h <;>
    obtain ⟨hr, he⟩ := issue_next h <;> refine ⟨hr, ?_⟩
  case breakpoint =>
    simp only [Host.Outcome.next.injEq] at he
    cases hb : breakpointTraps (issued s)
    · exact .inr ⟨_, .inr ⟨rfl, rfl, rfl⟩, by simpa [hb] using he.symm⟩
    · exact .inl ⟨rfl, rfl, by simpa [hb] using he.symm⟩
  case cache p disp op =>
    split at he
    · cases he
    · exact .inr ⟨_, .inl (.cache p disp op), Effect.complete_next (.cache p disp op) he⟩
  case mfsr d a =>
    split at he
    · cases he
    · rename_i r hr'
      exact .inr ⟨_, .inl (.mfsr d a r hr'), complete_next he⟩
  case mtsr a r =>
    split at he
    · cases he
    · rename_i x hx
      split at he
      · cases he
      · rename_i hn
        have hf : Effect s (.mtsr a r) _ := .mtsr a r x hx fun hx' => Bool.eq_false_iff.mpr fun hm => hn ⟨hx', hm⟩
        exact .inr ⟨_, .inl hf, hf.complete_next he⟩
  case tlbr =>
    split at he
    · cases he
    · rename_i e hx
      exact .inr ⟨_, .inl (.tlbr e hx), Effect.complete_next (.tlbr e hx) he⟩
  case tlbw =>
    split at he
    · cases he
    · rename_i e hx
      exact .inr ⟨_, .inl (.tlbw e hx), Effect.complete_next (.tlbw e hx) he⟩
  all_goals exact .inr ⟨_, .inl (by constructor), Effect.complete_next (by constructor) he⟩

end Sys2Proof.Machine
end

