-- ==== Sys2Proof/Laws/PerInstr.lean ====
section
/-! SUPPORT. Statements about the instruction as syntax, one lemma per constructor.
LengthRule: the word of an instruction has the length of R100, and its first halfword says so by the rule of R101. -/
namespace Sys2Proof.Laws

/-- Under the default table the instruction word is compact and `ilen` is 2, or extended and `ilen` is 4, and bits [15:13] of its first halfword
tell which (R100, R101). -/
def LengthRule.Statement (i : Instr) : Prop :=
  match i.encode with
  | .compact w => i.ilen defaultEncoding = 2 ∧ isExtended defaultEncoding w = false
  | .extended w => i.ilen defaultEncoding = 4 ∧ isExtended defaultEncoding (w.extractLsb' 16 16) = true

/-- The default length rule looks at bits [15:13] of the first halfword (R101). -/
theorem isExtended_default (h : Half) : isExtended defaultEncoding h = (h.extractLsb' 13 3 == 0b111#3) := by
  rw [isExtended, Bool.eq_iff_iff, beq_iff_eq, beq_iff_eq]
  constructor <;> intro e <;> apply BitVec.eq_of_getLsbD_eq <;> intro i hi
  · have := congrArg (·.getLsbD (13 + i)) e
    interval_cases i <;> simpa [defaultEncoding] using this
  · have hb := congrArg (·.getLsbD (i - 13)) e
    clear e
    interval_cases i <;> simp [defaultEncoding] at hb ⊢ <;> exact hb

/-- Bits [15:13] = 0b111 make a first halfword extended (R101). -/
theorem isExtended_of_highBits {h : Half} {b : BitVec 3} (hb : h.extractLsb' 13 3 = b) :
    isExtended defaultEncoding h = (b == 0b111#3) := by rw [isExtended_default, hb]

/-- Bits [15:13] of a compact word of format CB are those of its opcode. -/
theorem highBits_formatCB (op : BitVec 7) (bp : BitVec 5) :
    (op ++ bp ++ 0b0011#4 : BitVec 16).extractLsb' 13 3 = op.extractLsb' 4 3 := by
  apply BitVec.eq_of_getLsbD_eq
  intro i hi
  simp only [BitVec.getLsbD_extractLsb', BitVec.getLsbD_append]
  interval_cases i <;> simp

/-- Bits [15:13] of a compact word of format CR are those of its opcode. -/
theorem highBits_formatCR (op : BitVec 12) (r : BitVec 4) :
    (op ++ r : BitVec 16).extractLsb' 13 3 = op.extractLsb' 9 3 := by
  apply BitVec.eq_of_getLsbD_eq
  intro i hi
  simp only [BitVec.getLsbD_extractLsb', BitVec.getLsbD_append]
  interval_cases i <;> simp

/-- Bits [31:29] of an extended word of three fields are those of its opcode. -/
theorem highBits_threeFields {a b : Nat} (op : BitVec 12) (f : BitVec a) (g : BitVec b) (h : 12 + a + b = 32) :
    (((op ++ f ++ g).cast h).extractLsb' 16 16).extractLsb' 13 3 = op.extractLsb' 9 3 := by
  apply BitVec.eq_of_getLsbD_eq
  intro i hi
  simp only [BitVec.getLsbD_extractLsb', BitVec.getLsbD_cast, BitVec.getLsbD_append]
  have h1 : ¬ 16 + (13 + i) < b := by omega
  have h2 : ¬ 16 + (13 + i) - b < a := by omega
  have h3 : 16 + (13 + i) - b - a = 9 + i := by omega
  have h4 : 13 + i < 16 := by omega
  simp [hi, h1, h2, h3, h4]

/-- Bits [31:29] of an extended word of four fields are those of its opcode. -/
theorem highBits_fourFields {a b c : Nat} (op : BitVec 12) (f : BitVec a) (g : BitVec b) (k : BitVec c)
    (h : 12 + a + b + c = 32) :
    (((op ++ f ++ g ++ k).cast h).extractLsb' 16 16).extractLsb' 13 3 = op.extractLsb' 9 3 := by
  apply BitVec.eq_of_getLsbD_eq
  intro i hi
  simp only [BitVec.getLsbD_extractLsb', BitVec.getLsbD_cast, BitVec.getLsbD_append]
  have h1 : ¬ 16 + (13 + i) < c := by omega
  have h2 : ¬ 16 + (13 + i) - c < b := by omega
  have h3 : ¬ 16 + (13 + i) - c - b < a := by omega
  have h4 : 16 + (13 + i) - c - b - a = 9 + i := by omega
  have h5 : 13 + i < 16 := by omega
  simp [hi, h1, h2, h3, h4, h5]

/-- A word of format ERK8 is extended. -/
theorem isExtended_formatERK8 (op : BitVec 12) (r : Reg) (a : RegAddr) (h : op.extractLsb' 9 3 = 0b111#3) :
    ∃ w, formatERK8 op r a = .extended w ∧ isExtended defaultEncoding (w.extractLsb' 16 16) = true :=
  ⟨_, rfl, isExtended_of_highBits ((highBits_fourFields op _ _ _ rfl).trans h)⟩

/-- A word of format EK8 is extended. -/
theorem isExtended_formatEK8 (op : BitVec 12) (k : BitVec 8) (h : op.extractLsb' 9 3 = 0b111#3) :
    ∃ w, formatEK8 op k = .extended w ∧ isExtended defaultEncoding (w.extractLsb' 16 16) = true :=
  ⟨_, rfl, isExtended_of_highBits ((highBits_threeFields op _ _ rfl).trans h)⟩

/-- An instruction that encodes to an extended word with the extended bits, and has length 4, keeps the rule. -/
theorem lengthRule_of_extended {i : Instr} (hl : i.ilen defaultEncoding = 4)
    (h : ∃ w, i.encode = .extended w ∧ isExtended defaultEncoding (w.extractLsb' 16 16) = true) : LengthRule.Statement i := by
  obtain ⟨w, hw, he⟩ := h
  unfold LengthRule.Statement
  rw [hw]
  exact ⟨hl, he⟩

theorem LengthRule.breakpoint : LengthRule.Statement .breakpoint := ⟨rfl, by decide⟩
theorem LengthRule.cache (p : Reg) (disp : BitVec 11) (op : BitVec 5) : LengthRule.Statement (.cache p disp op) :=
  lengthRule_of_extended rfl ⟨_, rfl, isExtended_of_highBits (highBits_fourFields _ _ _ _ rfl)⟩
theorem LengthRule.csrf (bp : Fin 32) : LengthRule.Statement (.csrf bp) :=
  ⟨rfl, isExtended_of_highBits (highBits_formatCB _ _)⟩
theorem LengthRule.csrfcz (bp : Fin 32) : LengthRule.Statement (.csrfcz bp) :=
  ⟨rfl, isExtended_of_highBits (highBits_formatCB _ _)⟩
theorem LengthRule.frs : LengthRule.Statement .frs := ⟨rfl, by decide⟩
theorem LengthRule.mfdr (d : Reg) (a : RegAddr) : LengthRule.Statement (.mfdr d a) :=
  lengthRule_of_extended rfl (isExtended_formatERK8 _ d a rfl)
theorem LengthRule.mfsr (d : Reg) (a : RegAddr) : LengthRule.Statement (.mfsr d a) :=
  lengthRule_of_extended rfl (isExtended_formatERK8 _ d a rfl)
theorem LengthRule.mtdr (a : RegAddr) (s : Reg) : LengthRule.Statement (.mtdr a s) :=
  lengthRule_of_extended rfl (isExtended_formatERK8 _ s a rfl)
theorem LengthRule.mtsr (a : RegAddr) (s : Reg) : LengthRule.Statement (.mtsr a s) :=
  lengthRule_of_extended rfl (isExtended_formatERK8 _ s a rfl)
theorem LengthRule.musfr (s : Reg) : LengthRule.Statement (.musfr s) :=
  ⟨rfl, isExtended_of_highBits (highBits_formatCR _ _)⟩
theorem LengthRule.mustr (d : Reg) : LengthRule.Statement (.mustr d) :=
  ⟨rfl, isExtended_of_highBits (highBits_formatCR _ _)⟩
theorem LengthRule.nop : LengthRule.Statement .nop := ⟨rfl, by decide⟩
theorem LengthRule.pref (p : Reg) (disp : BitVec 16) : LengthRule.Statement (.pref p disp) :=
  lengthRule_of_extended rfl ⟨_, rfl, isExtended_of_highBits (highBits_threeFields _ _ _ rfl)⟩
theorem LengthRule.sleep (op : BitVec 8) : LengthRule.Statement (.sleep op) :=
  lengthRule_of_extended rfl (isExtended_formatEK8 _ op rfl)
theorem LengthRule.srCond (cond : Cond) (d : Reg) : LengthRule.Statement (.srCond cond d) := by
  revert cond d; intro cond d; cases cond <;> exact ⟨rfl, by revert d; decide⟩
theorem LengthRule.ssrf (bp : Fin 32) : LengthRule.Statement (.ssrf bp) :=
  ⟨rfl, isExtended_of_highBits (highBits_formatCB _ _)⟩
theorem LengthRule.sync (op : BitVec 8) : LengthRule.Statement (.sync op) :=
  lengthRule_of_extended rfl (isExtended_formatEK8 _ op rfl)
theorem LengthRule.tlbr : LengthRule.Statement .tlbr := ⟨rfl, by decide⟩
theorem LengthRule.tlbs : LengthRule.Statement .tlbs := ⟨rfl, by decide⟩
theorem LengthRule.tlbw : LengthRule.Statement .tlbw := ⟨rfl, by decide⟩

end Sys2Proof.Laws
end

