-- ==== Sys2Proof/Laws/Step.lean ====
section
/-! SUPPORT. What a step does: the two ways to a next state, the events, the step of a running core, and the checks that refuse. -/
namespace Sys2Proof.Machine

/-- An instruction that fails a check is refused for it (R140, steps 2 to 4). -/
theorem exec_of_check {i : Instr} {s : State} {r : Refusal} (h : check i s = some r) : exec i s = .refused r := by
  cases i <;>
    simp only [exec, execBreakpoint, execCache, execCsrf, execCsrfcz, execFrs, execMfdr, execMfsr, execMtdr, execMtsr,
      execMusfr, execMustr, execNop, execPref, execSleep, execSrCond, execSsrf, execSync, execTlbr, execTlbs, execTlbw,
      issue, h]

/-- A step that gives a next state: a sleeping core was held, or an instruction executed from the state after its fetch. -/
theorem step_next {s t : State} (h : step s = .next t) : t = s ∨ ∃ i, exec i (afterFetch s) = .next t := by
  unfold step at h
  split at h
  · rename_i o ho
    unfold beforeFetch at ho
    split at ho <;> cases ho <;> cases h
    exact .inl rfl
  · split at h
    · exact .inr ⟨_, h⟩
    · cases h
    · cases h

/-- A running core does nothing before its fetch. -/
theorem beforeFetch_of_running {s : State} (h : Running s) : beforeFetch s = none := by
  unfold beforeFetch; rw [h.1, h.2]

/-- Whatever event is raised, a step that meets it is refused (R226). -/
theorem step_of_event {s : State} {e : AsyncEvent} {es : List AsyncEvent} (h : s.events = e :: es) :
    step s = .refused (eventRefusal s e) := by
  simp only [step, beforeFetch, h]

/-- A sleeping core with no event is held (R185). -/
theorem step_of_asleep {s : State} {m : BitVec 8} (hs : s.sleep = some m) (he : s.events = []) : step s = .next s := by
  simp only [step, beforeFetch, hs, he]

/-- The step of a running core is what its fetch gives. -/
theorem step_of_running {s : State} (h : Running s) :
    (∀ i, fetch s = .instr i → step s = exec i (afterFetch s)) ∧
    (∀ f, fetch s = .stuck f → step s = .fault f) ∧
    (∀ r, fetch s = .refused r → step s = .refused r) := by
  refine ⟨?_, ?_, ?_⟩ <;> intro _ hf <;> simp only [step, beforeFetch_of_running h, hf]

/-- A core that may fetch reads the halfwords at pc. -/
theorem fetch_of_mayFetch {s : State} (h : MayFetch s) : fetch s = fetchWords s := by
  unfold fetch; rw [h.1, h.2.1, h.2.2]; rfl

end Sys2Proof.Machine
end

