-- ==== Sys2Proof/Laws/Tlb.lean ====
section
/-! SUPPORT. What the search loop of TLBS does, with the default layout and VMM selector. -/
namespace Sys2Proof.Machine

/-- The loop never looks at the N bit it clears: only the mode bit of MMUCR matters to a match. -/
theorem entryMatches_congr {p : Params} (hv : p.vmmShared = .atom 1) (key m m' : Word) (e : TlbEntry)
    (h : m.getLsbD 1 = m'.getLsbD 1) : entryMatches p key m e = entryMatches p key m' e := by
  simp only [entryMatches, vmmShared, hv, evalBool]
  rw [show (1 : Fin 32).val = 1 from rfl, h]

/-- Writing the default N bit changes bit 3 only. -/
theorem setField_notFound {p : Params} (hl : p.mmuLayout = defaultMmuLayout) (v : Nat) (m : Word) (j : Fin 32) :
    (setField p.mmuLayout.notFound v m).getLsbD j = if j.val = 3 then v.testBit 0 else m.getLsbD j := by
  rw [hl, show defaultMmuLayout.notFound = ⟨3, 1⟩ from rfl, setField_getLsbD]
  by_cases h : j.val = 3
  · rw [if_pos h, if_pos (by constructor <;> simp [h])]; simp [h]
  · have : ¬ (3 ≤ j.val ∧ j.val < 3 + 1) := by omega
    rw [if_neg this, if_neg h]

/-- The loop changes N only; with no match it changes nothing; with a highest match it carries that index and N is 0 (R192). -/
theorem searchEntries_spec {p : Params} (hl : p.mmuLayout = defaultMmuLayout) (hv : p.vmmShared = .atom 1) (key m : Word)
    (es : List TlbEntry) (acc : TlbSearch) (i : Nat) (ha : acc.mmucr.getLsbD 1 = m.getLsbD 1) :
    (∀ j : Fin 32, j.val ≠ 3 → (searchEntries p key acc i es).mmucr.getLsbD j = acc.mmucr.getLsbD j) ∧
    ((∀ e ∈ es, entryMatches p key m e = false) → searchEntries p key acc i es = acc) ∧
    (∀ j e, es[j]? = some e → entryMatches p key m e = true →
      (∀ k e', j < k → es[k]? = some e' → entryMatches p key m e' = false) →
      (searchEntries p key acc i es).ptr = some (i + j) ∧ (searchEntries p key acc i es).mmucr.getLsbD 3 = false) := by
  induction es generalizing acc i with
  | nil => simp [searchEntries]
  | cons e es ih =>
    simp only [searchEntries, entryMatches_congr hv key _ _ e ha]
    by_cases hc : entryMatches p key m e = true
    · rw [if_pos hc]
      obtain ⟨h1, h2, h3⟩ := ih ⟨setField p.mmuLayout.notFound 0 acc.mmucr, some i⟩ (i + 1)
        (((setField_notFound hl 0 acc.mmucr 1).trans (if_neg (by decide))).trans ha)
      refine ⟨fun j hj => by rw [h1 j hj]; simp only [setField_notFound hl, if_neg hj], fun hn => ?_, ?_⟩
      · have := hn e (by simp); simp [hc] at this
      · intro j e' hj he' hk
        cases j with
        | zero =>
          have : ∀ e ∈ es, entryMatches p key m e = false := by
            intro e2 he2
            obtain ⟨k, hk', rfl⟩ := List.mem_iff_getElem.mp he2
            exact hk (k + 1) _ (by omega) (by simp [hk'])
          rw [h2 this]
          exact ⟨rfl, by simpa using setField_notFound hl 0 acc.mmucr 3⟩
        | succ j =>
          obtain ⟨a, b⟩ := h3 j e' (by simpa using hj) he'
            (fun k e2 hk2 he2 => hk (k + 1) e2 (by omega) (by simpa using he2))
          exact ⟨by rw [a]; congr 1; omega, b⟩
    · rw [if_neg hc]
      obtain ⟨h1, h2, h3⟩ := ih acc (i + 1) ha
      refine ⟨h1, fun hn => h2 fun e he => hn e (by simp [he]), ?_⟩
      intro j e' hj he' hk
      cases j with
      | zero => simp at hj; subst hj; exact absurd he' hc
      | succ j =>
        obtain ⟨a, b⟩ := h3 j e' (by simpa using hj) he'
          (fun k e2 hk2 he2 => hk (k + 1) e2 (by omega) (by simpa using he2))
        exact ⟨by rw [a]; congr 1; omega, b⟩

end Sys2Proof.Machine
end

