-- ==== Sys2Proof/Tests/Slice0.lean ====
section
/-! SUPPORT. Tests: the well-formedness smoke, words written out from the encodings, at most two small steps per instruction
(the expected values are those of the spec's test vectors, named in each comment), and a state for the hypotheses of each
statement. -/
open Sys2Proof Sys2Proof.Machine

/-! ### Helpers -/

/-- The reset state with a given SR. -/
def testState (sr : Word) : State := { State.reset with sr := sr }

/-- The reset state with changed parameters. -/
def testParams (f : Params → Params) : State := State.resetWith (f defaultParams)

/-- The outcome is a next state in which the condition holds. -/
def nextHas (o : Host.Outcome State Fault Refusal) (p : State → Bool) : Bool :=
  match o with
  | .next t => p t
  | .fault _ => false
  | .refused _ => false

/-- The outcome is the refusal. -/
def isRefused (o : Host.Outcome State Fault Refusal) (r : Refusal) : Bool :=
  match o with
  | .next _ => false
  | .fault _ => false
  | .refused r' => r' == r

/-- The outcome is the fault. -/
def isFault (o : Host.Outcome State Fault Refusal) (f : Fault) : Bool :=
  match o with
  | .next _ => false
  | .fault f' => f' == f
  | .refused _ => false

/-! ### Well-formedness: an address that is no multiple of 4 is refused (R34, R37, R116) -/

theorem test_wellFormed_mfdr : (Instr.mfdr 3 8).wellFormed = true ∧ (Instr.mfdr 3 9).wellFormed = false := by decide
theorem test_wellFormed_mfsr : (Instr.mfsr 0 1020).wellFormed = true ∧ (Instr.mfsr 0 1022).wellFormed = false := by decide
theorem test_wellFormed_mtdr : (Instr.mtdr 16 4).wellFormed = true ∧ (Instr.mtdr 17 4).wellFormed = false := by decide
theorem test_wellFormed_mtsr : (Instr.mtsr 4 0).wellFormed = true ∧ (Instr.mtsr 6 0).wellFormed = false := by decide
theorem test_illFormed_is_refused : isRefused (exec (.mtsr 6 0) State.reset) .operandOutsideItsSet = true := by decide

/-! ### Decoding: words written out field by field from R103 to R112 (vectors E1 to E62) -/

/-- E1: the fixed word 1101011001110011. -/
theorem test_decode_breakpoint : decodeTableWord 16 0b1101011001110011 = some .breakpoint := by decide
/-- E56: 111101000001, p = 0010, Op5 = 01011, disp11 = 10000000000. -/
theorem test_decode_cache :
    decodeTableWord 32 0b11110100000100100101110000000000 = some (.cache 2 (BitVec.ofInt 11 (-1024)) 11) := by decide
/-- E8: 1101010, bp5 = 10000, 0011. -/
theorem test_decode_csrf : decodeTableWord 16 0b1101010100000011 = some (.csrf 16) := by decide
/-- E16: 1101000, bp5 = 10100, 0011. -/
theorem test_decode_csrfcz : decodeTableWord 16 0b1101000101000011 = some (.csrfcz 20) := by decide
/-- E3: the fixed word 1101011101000011. -/
theorem test_decode_frs : decodeTableWord 16 0b1101011101000011 = some .frs := by decide
/-- E46: 111001011011, d = 0011, 00000000, k8 = 00000010 (address 8). -/
theorem test_decode_mfdr : decodeTableWord 32 0b11100101101100110000000000000010 = some (.mfdr 3 8) := by decide
/-- E40: 111000011011, d = 1110, 00000000, k8 = 11111111 (address 1020). -/
theorem test_decode_mfsr : decodeTableWord 32 0b11100001101111100000000011111111 = some (.mfsr 14 1020) := by decide
/-- E48: 111001111011, s = 0100, 00000000, k8 = 00000100 (address 16). -/
theorem test_decode_mtdr : decodeTableWord 32 0b11100111101101000000000000000100 = some (.mtdr 16 4) := by decide
/-- E44: 111000111011, s = 0010, 00000000, k8 = 01000101 (address 276). -/
theorem test_decode_mtsr : decodeTableWord 32 0b11100011101100100000000001000101 = some (.mtsr 276 2) := by decide
/-- E22: 010111010011, s = 0100. -/
theorem test_decode_musfr : decodeTableWord 16 0b0101110100110100 = some (.musfr 4) := by decide
/-- E19: 010111010010, d = 0011. -/
theorem test_decode_mustr : decodeTableWord 16 0b0101110100100011 = some (.mustr 3) := by decide
/-- E2: the fixed word 1101011100000011. -/
theorem test_decode_nop : decodeTableWord 16 0b1101011100000011 = some .nop := by decide
/-- E60: 111100100001, p = 0101, disp16 = 1000000000000000. -/
theorem test_decode_pref :
    decodeTableWord 32 0b11110010000101011000000000000000 = some (.pref 5 (BitVec.ofInt 16 (-32768))) := by decide
/-- E51: 111010011011, 000000000000, Op8 = 10000000. -/
theorem test_decode_sleep : decodeTableWord 32 0b11101001101100000000000010000000 = some (.sleep 128) := by decide
/-- E29: 01011111, cond4 = 1010, d = 1000. -/
theorem test_decode_srCond : decodeTableWord 16 0b0101111110101000 = some (.srCond .le 8) := by decide
/-- E13: 1101001, bp5 = 11111, 0011. -/
theorem test_decode_ssrf : decodeTableWord 16 0b1101001111110011 = some (.ssrf 31) := by decide
/-- E54: 111010111011, 000000000000, Op8 = 11111111. -/
theorem test_decode_sync : decodeTableWord 32 0b11101011101100000000000011111111 = some (.sync 255) := by decide
/-- E4, E5, E6: the fixed words of the TLB instructions. -/
theorem test_decode_tlb :
    decodeTableWord 16 0b1101011001000011 = some .tlbr ∧ decodeTableWord 16 0b1101011001010011 = some .tlbs ∧
      decodeTableWord 16 0b1101011001100011 = some .tlbw := by decide
/-- X3, X4: a one in a field that is 0 in every encoding; X6, X7: words of no row. -/
theorem test_decode_refuses :
    decodeExtended defaultEncoding 0xE9B10000 = .error (.unknownExtended 0xE9B10000) ∧
      decodeExtended defaultEncoding 0xE1B00100 = .error (.unknownExtended 0xE1B00100) ∧
      decodeCompact defaultEncoding 0xD412 = .error (.unknownCompact 0xD412) ∧
      decodeCompact defaultEncoding 0x0000 = .error (.unknownCompact 0x0000) := by
  refine ⟨?_, ?_, ?_, ?_⟩ <;> rfl
/-- R74: the same word in little-endian byte order, the first halfword still at the lower address. -/
theorem test_decode_little_endian :
    (decode defaultEncoding false [0xB0, 0xE9, 0x80, 0x00]).toOption = some (.sleep 128, []) := by decide
/-- A table in which NOP has another word, SYNC is 2 bytes long and CSRF 4 (R6). -/
def otherTable : EncodingTable :=
  { defaultEncoding with
    nop := .compact ⟨0xFFFF, 0x0001, []⟩
    sync := .compact ⟨0xFF00, 0x4200, [(.op, 0)]⟩
    csrf := .extended ⟨0xFFFFFFE0, 0xE0000000, [(.bp, 0)]⟩ }
/-- R5, R6: the words are those of the table, and the default's are no longer instructions. -/
theorem test_decode_other_table :
    (decode otherTable true [0x00, 0x01]).toOption = some (.nop, []) ∧
      (decode otherTable true [0x42, 0xFF]).toOption = some (.sync 255, []) ∧
      (decode otherTable true [0xE0, 0x00, 0x00, 0x10]).toOption = some (.csrf 16, []) ∧
      (decode otherTable true [0xD7, 0x03]).toOption = none := by decide

/-! ### One step each -/

/-- V-BKPT-1, but for RSR_DBG, which holds free values outside the mask. -/
theorem test_breakpoint_traps :
    nextHas (exec .breakpoint
        { testParams (fun p => { p with ocdEnabled := .const true }) with
          pc := 0x80000100, sr := 0x00610000, evba := 0x80004000 })
      (fun t => t.pc == 0x8000401C && t.sr == 0x1DA18000 && t.rarDbg == 0x80000100) = true := by decide
/-- V-BKPT-3. -/
theorem test_breakpoint_masked :
    nextHas (exec .breakpoint { testParams (fun p => { p with ocdEnabled := .const true }) with sr := 0x08610000 })
      (fun t => t.pc == 0x80000002 && t.sr == 0x08610000 && t.rsrDbg == 0) = true := by decide
/-- V-CACHE-2: the address the command is given, selector and command. -/
theorem test_cache_operands :
    indexedAddress { State.reset with x := State.reset.x.set 2 0x1000 } 2 (BitVec.ofInt 11 (-1024)) = 0x00000C00 ∧
      cacheSelector 11 = 1 ∧ cacheCommandCode 11 = 3 := by decide
/-- V-CACHE-4. -/
theorem test_cache_in_application_mode :
    isRefused (exec (.cache 2 0 11) (testState 0)) .privilegedInApplicationMode = true := by decide
/-- V-CSRF-2. -/
theorem test_csrf_clears_gm : nextHas (exec (.csrf 16) (testState 0x00610000)) (fun t => t.sr == 0x00600000) = true := by decide
/-- V-CSRF-5. -/
theorem test_csrf_unimplemented : nextHas (exec (.csrf 31) (testState 0x00610000)) (fun t => t.sr == 0x00610000) = true := by decide
/-- V-CZ-1. -/
theorem test_csrfcz_copies_one : nextHas (exec (.csrfcz 16) (testState 0x00610000)) (fun t => t.sr == 0x00610003) = true := by decide
/-- V-CZ-5. -/
theorem test_csrfcz_copies_z : nextHas (exec (.csrfcz 1) (testState 0x00610001)) (fun t => t.sr == 0x00610000) = true := by decide
/-- V-FRS-1. -/
theorem test_frs : nextHas (exec .frs { State.reset with ras := [1, 2] }) (fun t => t.ras == [] && t.pc == 0x80000002) = true := by decide
/-- V-MFDR-2, in the register number the spec's encoding gives the address. -/
theorem test_mfdr_plain_storage :
    nextHas (exec (.mfdr 3 8)
        { testParams (fun p => { p with dbgPlainStorage := true }) with dbg := State.reset.dbg.set 2 0xCAFE0001 })
      (fun t => readReg t 3 == 0xCAFE0001) = true := by decide
/-- V-MFDR-3. -/
theorem test_mfdr_r15 : isRefused (exec (.mfdr 15 0) State.reset) .registerOperand15 = true := by decide
/-- V-MFSR-2. -/
theorem test_mfsr_evba :
    nextHas (exec (.mfsr 2 4) { State.reset with evba := 0x80004000 })
      (fun t => readReg t 2 == 0x80004000 && t.pc == 0x80000004) = true := by decide
/-- V-MFSR-3. -/
theorem test_mfsr_unmapped : isRefused (exec (.mfsr 14 1020) State.reset) .unmappedSystemRegister = true := by decide
/-- V-MTDR-1. -/
theorem test_mtdr : nextHas (exec (.mtdr 16 4) { State.reset with x := State.reset.x.set 4 1 }) (fun t => t.dbg[4] == 1) = true := by decide
/-- V-MTSR-3. -/
theorem test_mtsr_sr :
    nextHas (exec (.mtsr 0 1) { State.reset with x := State.reset.x.set 1 0xFFFFFFFF }) (fun t => t.sr == 0x3DFFC03F) = true := by decide
/-- V-MTSR-4. -/
theorem test_mtsr_mmu_enable :
    isRefused (exec (.mtsr 288 3) { State.reset with x := State.reset.x.set 3 1 }) .mmuEnable = true := by decide
/-- V-MUSFR-1. -/
theorem test_musfr :
    nextHas (exec (.musfr 4) { State.reset with x := State.reset.x.set 4 0xFFFFFFFA }) (fun t => t.sr == 0x0061000A) = true := by decide
/-- V-MUSTR-2. -/
theorem test_mustr :
    nextHas (exec (.mustr 3) { testState 0x1DA1800F with x := State.reset.x.set 3 0xFFFFFFFF })
      (fun t => readReg t 3 == 0xF) = true := by decide
/-- V-NOP-1. -/
theorem test_nop : nextHas (exec .nop State.reset) (fun t => t.pc == 0x80000002 && t.sr == 0x00610000) = true := by decide
/-- V-PREF-3: the address wraps past the signed range. -/
theorem test_pref_address :
    indexedAddress { State.reset with x := State.reset.x.set 6 0x7FFFFFFF } 6 (32767 : BitVec 16) = 0x80007FFE := by decide
/-- V-PREF-4. -/
theorem test_pref_no_fault :
    nextHas (exec (.pref 0 (BitVec.ofInt 16 (-1))) State.reset) (fun t => t.pc == 0x80000004 && t.sr == 0x00610000) = true := by decide
/-- V-SLEEP-1. -/
theorem test_sleep_clears_gm :
    nextHas (exec (.sleep 128) State.reset) (fun t => t.sr == 0x00600000 && t.sleep == some 128 && t.pc == 0x80000004) = true := by decide
/-- V-SLEEP-2. -/
theorem test_sleep_keeps_gm : nextHas (exec (.sleep 0) State.reset) (fun t => t.sr == 0x00610000 && t.sleep == some 0) = true := by decide
/-- The first table of the conditions: V = 1, N = 0, Z = 1, C = 0, Q = 0. -/
theorem test_srCond_first_state :
    (condList.toList.map fun c => condHolds (testState 0x0061000A) c) =
      [true, false, true, false, false, true, false, true, true, false, true, false, true, false, false, true] := by decide
/-- The second table: Q = 1, V = 0, N = 1, Z = 0, C = 1. -/
theorem test_srCond_second_state :
    (condList.toList.map fun c => condHolds (testState 0x00610015) c) =
      [false, true, false, true, false, true, true, false, true, false, true, false, false, true, true, true] := by decide
/-- V-SSRF-2. -/
theorem test_ssrf_gm : nextHas (exec (.ssrf 16) (testState 0x00400000)) (fun t => t.sr == 0x00410000) = true := by decide
/-- V-SSRF-4. -/
theorem test_ssrf_unimplemented : nextHas (exec (.ssrf 31) (testState 0x00610000)) (fun t => t.sr == 0x00610000) = true := by decide
/-- V-SYNC-2, with an access pending. -/
theorem test_sync :
    nextHas (exec (.sync 255) { State.reset with pending := [⟨true, 4, [1]⟩], writeBuffers := [⟨true, 8, [2]⟩] })
      (fun t => t.pending == [] && t.writeBuffers == [] && t.pc == 0x80000004) = true := by decide
/-- D20: under a `SyncOp` that lets Op8 bit 0 select the loads only, SYNC 1 leaves the stores pending. -/
theorem test_sync_weaker :
    nextHas (exec (.sync 1)
        { testParams (fun p => { p with syncOp := ⟨.atom 0, .const false, .const false⟩ }) with
          pending := [⟨true, 4, [1]⟩, ⟨false, 8, []⟩], writeBuffers := [⟨true, 8, [2]⟩] })
      (fun t => t.pending == [⟨true, 4, [1]⟩] && t.writeBuffers == [⟨true, 8, [2]⟩]) = true := by decide
/-- V-TLBR-2: the selector is read before TLBEHI is overwritten. -/
theorem test_tlbr :
    nextHas (exec .tlbr
        { State.reset with
          tlbehi := 0x00000100, mmucr := 0x04000000, itlb := State.reset.itlb.set 1 ⟨0x00401207, 0x00801004⟩ })
      (fun t => t.tlbehi == 0x00401207 && t.tlbelo == 0x00801004) = true := by decide
/-- The default TLB of the vectors: entry 2 of the data TLB is {0x00401207, lo}, the others are {0, 0}. -/
def tlbState (key mmucr lo : Word) : State :=
  { State.reset with tlbehi := key, mmucr := mmucr, dtlb := State.reset.dtlb.set 2 ⟨0x00401207, lo⟩ }
/-- V-TLBS-2: a different 1 KiB page of the same 4 KiB page matches. -/
theorem test_tlbs_hit :
    nextHas (exec .tlbs (tlbState 0x00401A07 0 0x00801004)) (fun t => t.mmucr == 0x00008000) = true := by decide
/-- V-TLBS-4, V-TLBS-5, V-TLBS-6: another ASID matches only when the mode is shared or the entry is global. -/
theorem test_tlbs_asid :
    (selectedTlb (tlbState 0x00401208 0 0x00801004)).any (entryMatches defaultParams 0x00401208 0) = false ∧
      nextHas (exec .tlbs (tlbState 0x00401208 2 0x00801004)) (fun t => t.mmucr == 0x00008002) = true ∧
      nextHas (exec .tlbs (tlbState 0x00401208 0 0x00801104)) (fun t => t.mmucr == 0x00008000) = true := by decide
/-- V-TLBW-2. -/
theorem test_tlbw :
    nextHas (exec .tlbw { State.reset with tlbehi := 0x00401307, tlbelo := 0x00801004, mmucr := 0x04008000 })
      (fun t => t.itlb == State.reset.itlb.set 1 ⟨0x00401307, 0x00801004⟩ && t.dtlb == State.reset.dtlb) = true := by decide
/-- V-TLBW-3. -/
theorem test_tlbw_out_of_range :
    isRefused (exec .tlbw { State.reset with mmucr := 0x00010000 }) .tlbIndexOutOfRange = true := by decide

/-! ### The step -/

/-- A NOP at pc is fetched and run (R101, R140). -/
theorem test_step_runs_nop : nextHas (step (State.reset.withFetchWord 16 0xD703)) (fun t => t.pc == 0x80000002) = true := by decide
/-- R6, R24: a step of each under a table that makes SYNC 2 bytes long and CSRF 4. -/
theorem test_step_other_lengths :
    nextHas (step ((testParams fun p => { p with encoding := otherTable }).withFetchWord 16 0x42FF))
        (fun t => t.pc == 0x80000002) = true ∧
      nextHas (step ((testParams fun p => { p with encoding := otherTable }).withFetchWord 32 0xE0000010))
        (fun t => t.pc == 0x80000004 && t.sr == 0x00600000) = true := by decide
/-- V-BKPT-6: an odd pc; V-SSRF-3: SR[J] = 1; R264 (c): no byte at pc. -/
theorem test_step_stops :
    isRefused (step { State.reset with pc := 0x8000401D }) .misalignedPc = true ∧
      isRefused (step (testState 0x10610000)) .javaState = true ∧
      isFault (step State.reset) (.stuckFetch 0x80000000) = true := by decide
/-- V-MTSR-5: with a window of 1 a BREAKPOINT directly after an MTSR to EVBA is refused. -/
theorem test_hazard_window :
    (match exec (.mtsr 4 0) (testParams fun p => { p with hazardWindow := 1 }) with
      | .next t => isRefused (exec .breakpoint t) .systemRegisterHazard && nextHas (exec .nop t) (fun u => u.windows == [])
      | .fault _ => false
      | .refused _ => false) = true := by decide
/-- A state with a hazard window of 1 and a privileged SR value in R0. -/
def hazardState : State := { testParams (fun p => { p with hazardWindow := 1 }) with x := State.reset.x.set 0 0x00610000 }

/-- The instruction is refused for a hazard after the write, with no other check of R140 in the way. -/
def hazardAfter (write i : Instr) : Bool :=
  match exec write hazardState with
  | .next t => mode t != 0b000#3 && isRefused (exec i t) .systemRegisterHazard
  | .fault _ => false
  | .refused _ => false

/-- R266's list, register by register. -/
theorem test_hazard_list :
    ([Instr.csrfcz 0, .mustr 1, .srCond .eq 1, .breakpoint, .csrf 0, .ssrf 16, .sleep 128, .mfsr 1 0, .tlbr].all
        (hazardAfter (.mtsr 0 0))) = true ∧
      ([Instr.breakpoint, .mfsr 1 4].all (hazardAfter (.mtsr 4 0))) = true ∧
      hazardAfter (.mtsr 48 0) (.mfsr 1 48) = true ∧ hazardAfter (.mtsr 80 0) (.mfsr 1 80) = true ∧
      ([272, 276, 288].all fun a => [Instr.tlbr, .tlbs, .tlbw, .mfsr 1 a].all (hazardAfter (.mtsr a 0))) = true ∧
      ([Instr.breakpoint, .mfdr 1 16].all (hazardAfter (.mtdr 16 0))) = true := by
  refine ⟨?_, ?_, ?_, ?_, ?_, ?_⟩ <;> decide
/-- A memory stays in address order, and a write over a byte replaces it. -/
theorem test_memory_canonical :
    writeBytes [] 0xFFFFFFFF [1, 2, 3] = [(0, 2), (1, 3), (4294967295, 1)] ∧
      Memory.wf (writeBytes [] 0xFFFFFFFF [1, 2, 3]) = true ∧ writeByte [(0, 2), (5, 7)] 5 9 = [(0, 2), (5, 9)] := by decide

/-! ### Witnesses: a concrete state and operands for the hypotheses of each statement -/

/-- An application-mode state. -/
def appState : State := testState 0x0000000F

/-- A state whose debug system is enabled by formula. -/
def ocdState : State := testParams fun p => { p with ocdEnabled := .const true }

/-- The reset state with a general register set. -/
def regState (r : Reg) (v : Word) : State := { State.reset with x := State.reset.x.set r v }

/-- CsrfClearsTheAddressedBit: a bit that holds state, one that does not, and a low bit in application mode. -/
theorem witness_csrf :
    (Ready (.csrf 16) State.reset ∧ Implemented State.reset.params 16) ∧
      (Ready (.csrf 31) State.reset ∧ ¬ Implemented State.reset.params 31) ∧ Ready (.csrf 15) appState := by decide
/-- SsrfSetsTheAddressedBit. -/
theorem witness_ssrf :
    (Ready (.ssrf 0) State.reset ∧ Implemented State.reset.params 0) ∧
      (Ready (.ssrf 31) State.reset ∧ ¬ Implemented State.reset.params 31) ∧ Ready (.ssrf 0) appState := by decide
/-- CsrfAndSsrfAreDuals: both orders. -/
theorem witness_csrf_ssrf :
    Implemented State.reset.params 5 ∧
      (∃ t u, exec (.ssrf 5) State.reset = .next t ∧ exec (.csrf 5) t = .next u) ∧
      (∃ t u, exec (.csrf 5) State.reset = .next t ∧ exec (.ssrf 5) t = .next u) :=
  ⟨by decide, ⟨_, _, exec_ssrf_of_ready 5 (by decide), exec_csrf_of_ready 5 (by decide)⟩,
    ⟨_, _, exec_csrf_of_ready 5 (by decide), exec_ssrf_of_ready 5 (by decide)⟩⟩
/-- CsrfczCopiesTheBitToCAndZ: a bit that holds state, and one that does not. -/
theorem witness_csrfcz :
    (Ready (.csrfcz 16) State.reset ∧ Implemented State.reset.params 16) ∧
      (Ready (.csrfcz 31) State.reset ∧ ¬ Implemented State.reset.params 31) ∧
      Implemented State.reset.params State.reset.params.srLayout.c ∧
      Implemented State.reset.params State.reset.params.srLayout.z := by decide
/-- MusfrCopiesTheLowFlags and MustrReadsTheLowFlags, in both modes. -/
theorem witness_musfr_mustr :
    Ready (.musfr 4) State.reset ∧ Ready (.musfr 14) appState ∧ Ready (.mustr 3) State.reset ∧ Ready (.mustr 0) appState ∧
      Implemented State.reset.params 0 ∧ Implemented State.reset.params 3 ∧ ¬ Implemented State.reset.params 6 := by
  refine ⟨?_, ?_, ?_, ?_, ?_, ?_, ?_⟩ <;> decide
/-- MusfrThenMustrKeepsTheLowBits. -/
theorem witness_musfr_then_mustr :
    (∀ i : Fin 32, i.val < 4 → Implemented State.reset.params i) ∧
      ∃ t u, exec (.musfr 4) State.reset = .next t ∧ exec (.mustr 3) t = .next u :=
  ⟨by decide, _, _, exec_musfr_of_ready 4 (by decide), exec_mustr_of_ready 3 (by decide)⟩
/-- SrCondWritesTheCondition: the first and the last condition, and every field holds state. -/
theorem witness_srCond :
    Ready (.srCond .eq 0) State.reset ∧ Ready (.srCond .al 14) appState ∧
      ∀ f ∈ [SrField.c, .z, .n, .v, .q, .l, .t, .r, .gm, .i0m, .i1m, .i2m, .i3m, .em, .m0, .m1, .m2, .d, .dm, .j, .h],
        Implemented State.reset.params (srPos State.reset.params.srLayout f) := by decide
/-- MfsrReadsTheMappedRegister: each of the seven registers (an unmapped address below). -/
theorem witness_mfsr :
    ∀ m ∈ defaultSysRegMap, Ready (.mfsr 0 m.1) State.reset ∧ State.reset.params.sysRegMap.lookup m.1 = some m.2 := by decide
/-- MtsrWritesTheMappedRegister: each of the seven registers, with no hazard window and with one. -/
theorem witness_mtsr :
    (∀ m ∈ defaultSysRegMap, Ready (.mtsr m.1 0) State.reset ∧ State.reset.params.sysRegMap.lookup m.1 = some m.2) ∧
      mmuEnabled State.reset.params (readReg State.reset 0) = false ∧ State.reset.params.hazardWindow = 0 ∧
      Ready (.mtsr 4 0) (testParams fun p => { p with hazardWindow := 2 }) := by decide
/-- MfsrReadsTheMappedRegister and MtsrWritesTheMappedRegister: an unmapped address, and a value that turns translation on. -/
theorem witness_systemRegister_refused :
    (Ready (.mfsr 14 1020) State.reset ∧ State.reset.params.sysRegMap.lookup 1020 = none) ∧
      Ready (.mtsr 1020 14) State.reset ∧
      (Ready (.mtsr 288 3) (regState 3 1) ∧ (regState 3 1).params.sysRegMap.lookup 288 = some .mmucr ∧
        mmuEnabled (regState 3 1).params (readReg (regState 3 1) 3) = true) := by decide
/-- MfdrReadsTheDebugRegister: the first and the last address, with plain storage and without. -/
theorem witness_mfdr :
    Ready (.mfdr 0 (BitVec.ofNat 10 (4 * 255))) State.reset ∧ Ready (.mfdr 14 (BitVec.ofNat 10 (4 * 0))) State.reset ∧
      Ready (.mfdr 3 8) (testParams fun p => { p with dbgPlainStorage := true }) := by decide
/-- MtdrWritesTheDebugRegister: the first and the last address, with no hazard window and with one. -/
theorem witness_mtdr :
    Ready (.mtdr (BitVec.ofNat 10 (4 * 255)) 0) State.reset ∧ Ready (.mtdr (BitVec.ofNat 10 (4 * 0)) 14) State.reset ∧
      Ready (.mtdr 16 4) (testParams fun p => { p with hazardWindow := 1 }) := by decide
/-- NopOnlyAdvancesPc, FrsEmptiesTheReturnStack, PrefChangesNoArchitecturalState, SyncCompletesAllAccesses. -/
theorem witness_hints :
    Ready .nop State.reset ∧ Ready .nop appState ∧ Ready .frs State.reset ∧ Ready .frs appState ∧
      Ready (.pref 0 (BitVec.ofInt 16 (-1))) State.reset ∧ Ready (.pref 14 32767) appState ∧
      Ready (.sync 0) State.reset ∧ Ready (.sync 255) appState := by
  refine ⟨?_, ?_, ?_, ?_, ?_, ?_, ?_, ?_⟩ <;> decide
/-- CacheFollowsThePolicy: each policy. -/
theorem witness_cache :
    (Ready (.cache 2 (BitVec.ofInt 11 (-1024)) 11) State.reset ∧ State.reset.params.cachePolicy = .nop) ∧
      (Ready (.cache 3 1023 31) (testParams fun p => { p with cachePolicy := .refuse }) ∧
        (testParams fun p => { p with cachePolicy := .refuse }).params.cachePolicy = .refuse) := by decide
/-- SleepEntersTheMode: Op8[7] = 1 and Op8[7] = 0. -/
theorem witness_sleep :
    (Ready (.sleep 128) State.reset ∧ (128 : BitVec 8).getLsbD 7 = true ∧
      Implemented State.reset.params State.reset.params.srLayout.gm) ∧
      (Ready (.sleep 0) State.reset ∧ (0 : BitVec 8).getLsbD 7 = false) := by decide
/-- BreakpointTrapsOrIsANop: supervisor and application mode, and the three offsets. -/
theorem witness_breakpoint_traps :
    (Ready .breakpoint ocdState ∧ ocdEnabled (issued ocdState) = true ∧ srField (issued ocdState) .dm = false) ∧
      TrapFieldsApart ocdState.params ∧
      (∀ o ∈ [RarOffset.zero, .two, .unfixed],
        Ready .breakpoint { ocdState with params := { ocdState.params with bkptRarOffset := o } } ∧
          ocdEnabled (issued { ocdState with params := { ocdState.params with bkptRarOffset := o } }) = true) ∧
      Ready .breakpoint { ocdState with sr := 0xF } := by decide
/-- BreakpointTrapsOrIsANop, the NOP: each alternative. -/
theorem witness_breakpoint_nop :
    (Ready .breakpoint (testParams fun p => { p with ocdEnabled := .const false }) ∧
      ocdEnabled (issued (testParams fun p => { p with ocdEnabled := .const false })) = false) ∧
      (Ready .breakpoint { ocdState with sr := 0x08610000 } ∧
        srField (issued { ocdState with sr := 0x08610000 }) .dm = true) := by decide
/-- BreakpointTrapDoesNotNest. -/
theorem witness_breakpoint_does_not_nest :
    TrapFieldsApart ocdState.params ∧ breakpointTraps (issued ocdState) = true ∧
      exec .breakpoint ocdState = .next (takeBreakpoint (issued ocdState)) ∧
      Ready .breakpoint (takeBreakpoint (issued ocdState)) :=
  ⟨by decide, by decide, by rw [exec_breakpoint_of_ready (by decide), if_pos (by decide)], by decide⟩
/-- TlbrReadsTheAddressedEntry and TlbwWritesTheAddressedEntry: either TLB, at the first and the last entry. -/
theorem witness_tlb_inside :
    (Ready .tlbr State.reset ∧ addressedEntry State.reset = some ⟨0, 0⟩) ∧ Ready .tlbw State.reset ∧
      (getField defaultMmuLayout.itlb 0x100 = 1 ∧ getField defaultMmuLayout.irp 0x0C000000 = 3 ∧
        addressedEntry { State.reset with tlbehi := 0x100, mmucr := 0x0C000000 } = some ⟨0, 0⟩) ∧
      (getField defaultMmuLayout.itlb 0 ≠ 1 ∧ getField defaultMmuLayout.drp 0x0000C000 = 3 ∧
        addressedEntry { State.reset with mmucr := 0x0000C000 } = some ⟨0, 0⟩) := by decide
/-- TlbrReadsTheAddressedEntry and TlbwWritesTheAddressedEntry: the first index out of range, in either TLB. -/
theorem witness_tlb_outside :
    (State.reset.itlb.length ≤ getField defaultMmuLayout.irp 0x10000000 ∧
      Ready .tlbr { State.reset with tlbehi := 0x100, mmucr := 0x10000000 }) ∧
      (State.reset.dtlb.length ≤ getField defaultMmuLayout.drp 0x00010000 ∧
        Ready .tlbw { State.reset with mmucr := 0x00010000 }) := by decide
/-- TlbwThenTlbrReturnsThePair. -/
theorem witness_tlbw_then_tlbr : ∃ t, exec .tlbw State.reset = .next t ∧ Ready .tlbr t :=
  ⟨_, exec_tlbw_of_ready ⟨0, 0⟩ (by decide) (by decide), by decide⟩
/-- TlbsChangesOnlyMmucr and TlbsReturnsTheHighestMatch: two matching entries, the higher at 2. -/
theorem witness_tlbs_match :
    let s := { tlbState 0x00401207 0 0x00801004 with
      dtlb := [⟨0, 0⟩, ⟨0x00401207, 0x00801004⟩, ⟨0x00401207, 0x00801004⟩, ⟨0, 0⟩] }
    Ready .tlbs s ∧ s.params.mmuLayout = defaultMmuLayout ∧ s.params.vmmShared = .atom 1 ∧
      (selectedTlb s)[2]? = some ⟨0x00401207, 0x00801004⟩ ∧
      entryMatches s.params s.tlbehi s.mmucr ⟨0x00401207, 0x00801004⟩ = true ∧
      (selectedTlb s)[3]? = some ⟨0, 0⟩ ∧ entryMatches s.params s.tlbehi s.mmucr ⟨0, 0⟩ = false ∧
      (selectedTlb s)[4]? = none := by decide
/-- TlbsReportsNoMatch. -/
theorem witness_tlbs_no_match :
    let s := tlbState 0x00402207 0 0x00801004
    Ready .tlbs s ∧ ∀ e ∈ selectedTlb s, entryMatches s.params s.tlbehi s.mmucr e = false := by decide
/-- RegisterOperand15IsRefused: both values of the parameter. -/
theorem witness_register15 :
    ((Instr.mustr 15).WellFormed ∧ State.reset.params.r15AliasesPc = true ∧ (15 : Reg) ∈ regOperands (.mustr 15)) ∧
      (testParams fun p => { p with r15AliasesPc := false }).params.r15AliasesPc = false := by decide
/-- PrivilegedInApplicationModeIsRefused: both clauses. -/
theorem witness_privileged :
    ((Instr.mfsr 0 0).WellFormed ∧ (15 : Reg) ∉ regOperands (.mfsr 0 0) ∧ privClass (.mfsr 0 0) ∈ appState.params.privSet ∧
      mode appState = 0b000#3) ∧ mode State.reset ≠ 0b000#3 := by decide
/-- HazardIsRefused. -/
theorem witness_hazard :
    let s := { State.reset with windows := [⟨.sys .evba, 1⟩] }
    Instr.breakpoint.WellFormed ∧ (15 : Reg) ∉ regOperands .breakpoint ∧ mode s ≠ 0b000#3 ∧
      (⟨.sys .evba, 1⟩ : HazardWindow) ∈ s.windows ∧ dependsOn s.params .breakpoint (.sys .evba) = true := by decide
/-- HazardWindowOpensAfterAWrite: both clauses, with a dependent instruction; `test_hazard_list` above has one for each entry of
R266's list. -/
theorem witness_hazard_opens :
    0 < hazardState.params.hazardWindow ∧ Instr.breakpoint.WellFormed ∧ (15 : Reg) ∉ regOperands .breakpoint ∧
      (∃ t, exec (.mtsr 4 0) hazardState = .next t ∧ mode t ≠ 0b000#3 ∧
        hazardState.params.sysRegMap.lookup 4 = some .evba ∧ DependsByR266 hazardState.params (.sys .evba) .breakpoint) ∧
      (∃ t, exec (.mtdr (BitVec.ofNat 10 (4 * (4 : Fin 256).val)) 0) hazardState = .next t ∧ mode t ≠ 0b000#3 ∧
        DependsByR266 hazardState.params (.dbg 4) .breakpoint) :=
  ⟨by decide, by decide, by decide,
    ⟨_, exec_mtsr_of_ready 4 0 .evba (by decide) (by decide) (by decide), by decide, by decide, .inl rfl⟩,
    ⟨_, exec_mtdr_of_ready _ 0 (by decide), by decide, .inl rfl⟩⟩
/-- HazardSparesIndependentInstructions: no window is open before the write, and an SSRF depends on neither EVBA nor a debug
register; it executes. -/
theorem witness_hazard_spares :
    hazardState.windows = [] ∧
      (∃ t, exec (.mtsr 4 0) hazardState = .next t ∧ hazardState.params.sysRegMap.lookup 4 = some .evba ∧
        Ready (.ssrf 0) t) ∧
      (∃ t, exec (.mtdr (BitVec.ofNat 10 (4 * (4 : Fin 256).val)) 0) hazardState = .next t ∧ Ready (.ssrf 0) t) ∧
      ¬ DependsByR266 hazardState.params (.sys .evba) (.ssrf 0) ∧ ¬ DependsByR266 hazardState.params (.dbg 4) (.ssrf 0) :=
  ⟨by decide, ⟨_, exec_mtsr_of_ready 4 0 .evba (by decide) (by decide) (by decide), by decide, by decide⟩,
    ⟨_, exec_mtdr_of_ready _ 0 (by decide), by decide⟩, by simp [DependsByR266], by simp [DependsByR266]⟩
/-- NopsCloseTheHazardWindows. -/
theorem witness_nops :
    PrivClass.nop ∉ State.reset.params.privSet ∧
      ∀ w ∈ [(⟨.sys .sr, 2⟩ : HazardWindow), ⟨.dbg 4, 1⟩], 0 < w.left ∧ w.left ≤ 2 := by decide
/-- OnlyBreakpointTransfersControl, OnlyTheseInstructionsWriteSr, OnlyTheseInstructionsWriteRegisters: next states in which
pc moves on, pc goes to the handler, SR changes and a register changes. -/
theorem witness_exec_next :
    nextHas (exec .nop State.reset) (fun t => t.pc == State.reset.pc + 2) = true ∧
      nextHas (exec .breakpoint ocdState) (fun t => t.pc == 0x1C) = true ∧
      nextHas (exec (.ssrf 0) State.reset) (fun t => t.sr != State.reset.sr) = true ∧
      nextHas (exec (.srCond .al 12) State.reset) (fun t => readReg t 12 != readReg State.reset 12) = true := by decide
/-- UnimplementedSrBitsAreNeverWritten, StepKeepsMemoryAndParameters, StepKeepsTheMachineInvariant, NoStepTurnsTranslationOn:
a step that gives a next state, from a state that meets their premises. -/
theorem witness_step_next :
    nextHas (step (State.reset.withFetchWord 16 0xD703)) (fun _ => true) = true ∧ ¬ Implemented State.reset.params 31 ∧
      Memory.wf (State.reset.withFetchWord 16 0xD703).mem = true ∧
      (State.reset.withFetchWord 16 0xD703).sr &&& ~~~State.reset.params.srMask = 0 ∧
      TlbEntriesAdmitted (State.reset.withFetchWord 16 0xD703).params ∧
      (State.reset.withFetchWord 16 0xD703).mmucr.getLsbD 0 = false ∧
      State.reset.params.mmuLayout = defaultMmuLayout ∧ State.reset.params.mmuEnabled = .atom 0 := by decide
/-- OnlyTheTrapLeavesApplicationMode: a step that stays in application mode, and one that takes the trap. -/
theorem witness_application_mode :
    let s := { ocdState with sr := 0xF }
    mode s = 0b000#3 ∧ s.params.srLayout = defaultSrLayout ∧ s.params.srMask = defaultSrMask ∧
      s.params.privSet = defaultPrivSet ∧
      nextHas (step (s.withFetchWord 16 0xD703)) (fun t => mode t == 0b000#3) = true ∧
      nextHas (step (s.withFetchWord 16 0xD673)) (fun t => mode t == 0b110#3 && t.pc == 0x1C) = true := by decide
/-- StepRunsTheDecodedInstruction: a compact and an extended instruction. -/
theorem witness_step_runs :
    let s := State.reset.withFetchWord 16 0xD703
    let u := State.reset.withFetchWord 32 0xE9B00080
    Running s ∧ MayFetch s ∧ readBytes s.mem s.pc 2 = some [0xD7, 0x03] ∧
      (decode defaultEncoding true [0xD7, 0x03]).toOption = some (.nop, []) ∧
      readBytes u.mem u.pc 4 = some [0xE9, 0xB0, 0x00, 0x80] ∧
      (decode defaultEncoding true [0xE9, 0xB0, 0x00, 0x80]).toOption = some (.sleep 128, []) := by decide
/-- FetchIsRefused: each clause. -/
theorem witness_fetch_refused :
    (Running { State.reset with pc := 0x8000401D } ∧ (0x8000401D : Word).getLsbD 0 = true) ∧
      (Running (testState 0x10610000) ∧ srField (redrawn (testState 0x10610000)) .j = true) ∧
      (Running { State.reset with mmucr := 1 } ∧ srField (redrawn { State.reset with mmucr := 1 }) .j = false ∧
        mmuEnabled State.reset.params 1 = true) := by decide
/-- The reset state with the first halfword of an extended instruction at pc and nothing after it. -/
def halfFetchState : State := { State.reset with mem := writeBytes [] 0x80000000 [0xE9, 0xB0] }

/-- FetchFromAbsentMemoryIsStuck and WordsOutsideTheMapAreRefused: nothing at pc, half an extended instruction at pc,
a compact word of no row at pc, and an extended one. -/
theorem witness_fetch_stops :
    (Running State.reset ∧ MayFetch State.reset ∧ memRead State.reset State.reset.pc 2 = none) ∧
      (Running halfFetchState ∧ MayFetch halfFetchState ∧ memRead halfFetchState 0x80000000 2 = some 0xE9B0 ∧
        isExtended defaultEncoding (BitVec.ofNat 16 0xE9B0) = true ∧ memRead halfFetchState (0x80000000 + 2) 2 = none) ∧
      (memRead (State.reset.withFetchWord 16 0xD412) 0x80000000 2 = some 0xD412 ∧
        isExtended defaultEncoding (BitVec.ofNat 16 0xD412) = false ∧
        isRefused (step (State.reset.withFetchWord 16 0xD412)) (.notOneOfThe20 (.unknownCompact 0xD412)) = true) ∧
      (memRead (State.reset.withFetchWord 32 0xE9B10000) 0x80000000 2 = some 0xE9B1 ∧
        memRead (State.reset.withFetchWord 32 0xE9B10000) (0x80000000 + 2) 2 = some 0 ∧
        isRefused (step (State.reset.withFetchWord 32 0xE9B10000)) (.notOneOfThe20 (.unknownExtended 0xE9B10000)) = true) := by
  refine ⟨?_, ?_, ?_, ?_⟩ <;> decide
/-- A sleeping core whose hold a wake event ends, by formula, and an NMI does not. -/
def sleepingState (es : List AsyncEvent) : State :=
  { testParams (fun p => { p with wakeEvent := .atom (.event .wake) }) with sleep := some 128, events := es }

/-- SleepingCoreIsHeld and AsynchronousEventsAreRefused: asleep with no event, with the event that ends the sleep and with
another, masked and not; running with an event that is masked and one that is not. -/
theorem witness_sleeping :
    nextHas (step (sleepingState [])) (fun t => t.sleep == some 128) = true ∧
      (endsSleep (sleepingState [.wake]) 128 .wake = true ∧
        isRefused (step (sleepingState [.wake])) (.wakeEvent 128 .wake) = true) ∧
      (endsSleep (sleepingState [.nmi]) 128 .nmi = false ∧
        isRefused (step (sleepingState [.nmi])) (.asyncEvent .nmi) = true ∧
        isRefused (step (sleepingState [.interrupt])) (.maskedEvent .interrupt) = true) ∧
      isRefused (step { State.reset with events := [.nmi] }) (.asyncEvent .nmi) = true ∧
      isRefused (step { State.reset with events := [.interrupt] }) (.maskedEvent .interrupt) = true := by
  refine ⟨?_, ⟨?_, ?_⟩, ⟨?_, ?_, ?_⟩, ?_, ?_⟩ <;> decide
/-- SyncCompletesAllAccesses: the full barrier, an access that is pending before, and one that a weaker `SyncOp` leaves. -/
theorem witness_sync :
    State.reset.params.syncOp = fullBarrier ∧
      nextHas (exec (.sync 2)
          { testParams (fun p => { p with syncOp := ⟨.const true, .atom 0, .atom 1⟩ }) with
            pending := [⟨true, 4, [1]⟩], writeBuffers := [⟨true, 8, [2]⟩] })
        (fun t => t.pending == [⟨true, 4, [1]⟩] && t.writeBuffers == []) = true := by decide
/-- TheTableGivesTheLength: a table in which the instruction of a decoded word has another length than by default. -/
theorem witness_lengths :
    (decode otherTable true [0x42, 0xFF, 0x07]).toOption = some (.sync 255, [0x07]) ∧ (Instr.sync 255).ilen otherTable = 2 ∧
      (Instr.csrf 16).ilen otherTable = 4 ∧ (Instr.sync 255).ilen defaultEncoding = 4 := by decide
/-- A state with as many TLB entries as R6 admits under the default layout. -/
def fullTlbState : State := testParams fun p => { p with itlbEntries := 64, dtlbEntries := 64 }
/-- ResetMeetsTheMachineInvariant and EveryTlbEntryCanBeAddressed: 64 entries are admitted and 65 are not, and the last is there. -/
theorem witness_tlb_bound :
    TlbEntriesAdmitted fullTlbState.params ∧ ¬ TlbEntriesAdmitted { fullTlbState.params with dtlbEntries := 65 } ∧
      Inv fullTlbState ∧ fullTlbState.params.mmuLayout = defaultMmuLayout ∧ 63 < (selectedTlb fullTlbState).length :=
  ⟨by decide, by decide, ⟨by decide, by decide, by decide, by decide, by decide, by decide⟩, by decide, by decide⟩
/-- MustBeZeroFieldsAreChecked: vectors X3 and X4. -/
theorem witness_must_be_zero :
    ((0xE1B00100 : Word).extractLsb' 20 12 ∈ [0xE5B#12, 0xE1B#12, 0xE7B#12, 0xE3B#12] ∧
      (0xE1B00100 : Word).extractLsb' 8 8 ≠ 0) ∧
      ((0xE9B10000 : Word).extractLsb' 20 12 ∈ [0xE9B#12, 0xEBB#12] ∧ (0xE9B10000 : Word).extractLsb' 8 12 ≠ 0) := by decide
/-- DecodeOfEncodeIsTheInstruction and EncodeOfDecodeIsTheWord: a well-formed instruction, and a word that decodes. -/
theorem witness_encode :
    (Instr.mtsr 288 14).WellFormed ∧ (decodeCompact defaultEncoding 0x5FA8).toOption = some (.srCond .le 8) ∧
      (decodeExtended defaultEncoding 0xE3BE0048).toOption = some (.mtsr 288 14) := by decide
end

section
/-! SUPPORT. The length of an instruction and the bytes the decoder takes for it (R24, R100, R101). -/
namespace Sys2Proof

/-- The decoder's answer is mapped over only where there is one. -/
theorem decoded_map_eq_ok {d : Except DecodeError Instr} {rest rest' : List Byte} {i : Instr}
    (h : d.map (·, rest) = .ok (i, rest')) : d = .ok i ∧ rest = rest' := by
  cases d <;> cases h
  exact ⟨rfl, rfl⟩

/-- Bytes that decode begin with a halfword that is not extended and decodes as a compact word, or with two halfwords of which the
first is extended and which decode as an extended word; what follows is the rest (R101). -/
theorem decode_eq_ok {t : EncodingTable} {bigEndian : Bool} {bytes rest : List Byte} {i : Instr}
    (h : decode t bigEndian bytes = .ok (i, rest)) :
    (∃ b0 b1, bytes = b0 :: b1 :: rest ∧ isExtended t (halfOfBytes bigEndian b0 b1) = false ∧
      decodeCompact t (halfOfBytes bigEndian b0 b1) = .ok i) ∨
    (∃ b0 b1 b2 b3, bytes = b0 :: b1 :: b2 :: b3 :: rest ∧ isExtended t (halfOfBytes bigEndian b0 b1) = true ∧
      decodeExtended t (halfOfBytes bigEndian b0 b1 ++ halfOfBytes bigEndian b2 b3) = .ok i) := by
  unfold decode at h
  split at h
  · rename_i b0 b1 tail
    dsimp only at h
    split at h
    · rename_i hext
      split at h
      · rename_i b2 b3 tail'
        obtain ⟨hd, rfl⟩ := decoded_map_eq_ok h
        exact .inr ⟨b0, b1, b2, b3, rfl, hext, hd⟩
      · cases h
    · rename_i hext
      obtain ⟨hd, rfl⟩ := decoded_map_eq_ok h
      exact .inl ⟨b0, b1, rfl, Bool.eq_false_iff.mpr hext, hd⟩
  · cases h

/-- The decoder takes as many bytes as the table's length of the instruction (R24). -/
theorem length_eq_ilen_add_of_decode {t : EncodingTable} {bigEndian : Bool} {bytes rest : List Byte} {i : Instr}
    (h : decode t bigEndian bytes = .ok (i, rest)) : bytes.length = i.ilen t + rest.length := by
  obtain ⟨b0, b1, rfl, -, hd⟩ | ⟨b0, b1, b2, b3, rfl, -, hd⟩ := decode_eq_ok h
  · obtain ⟨r, hrow, -⟩ := decodeCompact_eq_ok hd
    simp only [Instr.ilen_of_compact hrow, List.length_cons]
    omega
  · obtain ⟨r, hrow, -⟩ := decodeExtended_eq_ok hd
    simp only [Instr.ilen_of_extended hrow, List.length_cons]
    omega

/-- An instruction is 2 or 4 bytes long, whatever the table (R100). -/
theorem Instr.ilen_eq_two_or_four (t : EncodingTable) (i : Instr) : i.ilen t = 2 ∨ i.ilen t = 4 := by
  cases h : t.row i.name with
  | compact r => exact .inl (Instr.ilen_of_compact h)
  | extended r => exact .inr (Instr.ilen_of_extended h)

end Sys2Proof

namespace Sys2Proof.Laws

/-- Settles O57: the bytes taken by inversion of the decoder, the lengths by the row the table gives the instruction. -/
theorem theTableGivesTheLength : Obligations.TheTableGivesTheLength := by
  refine ⟨fun _ _ _ _ _ h => length_eq_ilen_add_of_decode h, Instr.ilen_eq_two_or_four,
    fun _ => Instr.ilen_of_compact rfl, fun i => ?_⟩
  -- R100's list, one row of the default table for each instruction.
  cases i <;> rfl

end Sys2Proof.Laws
end

section
/-! SUPPORT. What any instruction that reaches a next state keeps of the machine's state, field by field (10_state.md), and
which refusals it can end in instead. -/
namespace Sys2Proof.Machine

/-! ### From the effects to the instruction -/

/-- What holds after every effect of an instruction, after a BREAKPOINT that traps and one that does not, and does not look at
pc, holds of every next state the instruction reaches. -/
theorem exec_next_of_effect {i : Instr} {s t : State} {P : State → Prop} (h : exec i s = .next t)
    (hadvance : ∀ u n, P u → P (advance u n)) (heffect : ∀ u, Effect s i u → P u)
    (hnop : i = .breakpoint → P (issued s)) (htrap : i = .breakpoint → P (takeBreakpoint (issued s))) : P t := by
  obtain ⟨-, ⟨hi, -, rfl⟩ | ⟨u, he | ⟨hi, -, rfl⟩, rfl⟩⟩ := exec_next h
  · exact htrap hi
  · exact hadvance u _ (heffect u he)
  · exact hadvance _ _ (hnop hi)

/-- What holds of a state, and after every instruction executed from the state after its fetch, holds after a step. -/
theorem step_next_of_exec {s t : State} {P : State → Prop} (h : step s = .next t) (hheld : P s)
    (hexec : ∀ i, exec i (afterFetch s) = .next t → P t) : P t := by
  obtain rfl | ⟨i, hi⟩ := step_next h
  · exact hheld
  · exact hexec i hi

/-! ### Parameters and memory (R6, R196) -/

/-- No instruction changes a parameter. -/
theorem exec_params {i : Instr} {s t : State} (h : exec i s = .next t) : t.params = s.params :=
  exec_next_of_effect (P := fun t => t.params = s.params) h (fun _ _ hu => hu) (fun _ he => he.params) (fun _ => rfl)
    (fun _ => by simp)

/-- No effect changes main memory. -/
theorem Effect.mem {i : Instr} {s u : State} (h : Effect s i u) : u.mem = s.mem := by
  cases h
  case sleep op => cases op.getLsbD 7 <;> simp
  all_goals simp

/-- No instruction changes main memory. -/
theorem exec_mem {i : Instr} {s t : State} (h : exec i s = .next t) : t.mem = s.mem :=
  exec_next_of_effect (P := fun t => t.mem = s.mem) h (fun _ _ hu => hu) (fun _ he => he.mem) (fun _ => rfl)
    (fun _ => by simp)

/-! ### The TLBs keep their sizes (R44) -/

/-- Replacing an entry keeps the size of the instruction TLB. -/
@[simp] theorem writeSelectedTlb_itlb_length (s : State) (k : Nat) (e : TlbEntry) :
    (writeSelectedTlb s k e).itlb.length = s.itlb.length := by
  unfold writeSelectedTlb; split <;> simp

/-- Replacing an entry keeps the size of the data TLB. -/
@[simp] theorem writeSelectedTlb_dtlb_length (s : State) (k : Nat) (e : TlbEntry) :
    (writeSelectedTlb s k e).dtlb.length = s.dtlb.length := by
  unfold writeSelectedTlb; split <;> simp

/-- No effect changes the size of a TLB. -/
theorem Effect.tlb_lengths {i : Instr} {s u : State} (h : Effect s i u) :
    u.itlb.length = s.itlb.length ∧ u.dtlb.length = s.dtlb.length := by
  cases h
  case sleep op => cases op.getLsbD 7 <;> simp
  all_goals simp

/-- No instruction changes the size of a TLB. -/
theorem exec_tlb_lengths {i : Instr} {s t : State} (h : exec i s = .next t) :
    t.itlb.length = s.itlb.length ∧ t.dtlb.length = s.dtlb.length :=
  exec_next_of_effect (P := fun t => t.itlb.length = s.itlb.length ∧ t.dtlb.length = s.dtlb.length) h
    (fun _ _ hu => hu) (fun _ he => he.tlb_lengths) (fun _ => ⟨rfl, rfl⟩) (fun _ => by simp)

/-! ### The hazard windows (R266) -/

/-- The open windows after a write are the one of the written register, if the machine has windows at all, and those before. -/
theorem mem_openWindow {s : State} {t : HazardTarget} {w : HazardWindow} :
    w ∈ (openWindow s t).windows ↔ (0 < s.params.hazardWindow ∧ w = ⟨t, s.params.hazardWindow⟩) ∨ w ∈ s.windows := by
  rw [openWindow_windows]
  split
  · simp [*]
  · simp [Nat.pos_iff_ne_zero, *]

/-- A window open after an effect is an older one, or a new one of the full length. -/
theorem Effect.mem_windows {i : Instr} {s u : State} {w : HazardWindow} (h : Effect s i u) (hw : w ∈ u.windows) :
    (0 < s.params.hazardWindow ∧ w.left = s.params.hazardWindow) ∨ w ∈ ageWindows s.windows := by
  cases h
  case mtdr a r => exact (mem_openWindow.mp hw).imp_left fun ⟨hpos, hnew⟩ => ⟨hpos, congrArg (·.left) hnew⟩
  case mtsr a r x _ _ =>
    obtain ⟨hpos, rfl⟩ | hold := mem_openWindow.mp hw
    · exact .inl (by simpa using hpos)
    · exact .inr (by simpa using hold)
  case sleep op => split at hw <;> exact .inr (by simpa using hw)
  all_goals exact .inr (by simpa using hw)

/-- A window open after an instruction is an older one, or a new one of the full length. -/
theorem exec_mem_windows {i : Instr} {s t : State} (h : exec i s = .next t) :
    ∀ w ∈ t.windows,
      (0 < s.params.hazardWindow ∧ w.left = s.params.hazardWindow) ∨ w ∈ ageWindows s.windows :=
  exec_next_of_effect
    (P := fun t => ∀ w ∈ t.windows,
      (0 < s.params.hazardWindow ∧ w.left = s.params.hazardWindow) ∨ w ∈ ageWindows s.windows) h
    (fun _ _ hu => hu) (fun _ he _ hw => he.mem_windows hw) (fun _ _ hw => .inr hw)
    (fun _ _ hw => .inr (by simpa using hw))

/-- Where every open window covers at least one and at most `n` instructions, so does every window one instruction older. -/
theorem ageWindows_bounds {n : Nat} {ws : List HazardWindow} (h : ∀ w ∈ ws, 0 < w.left ∧ w.left ≤ n) :
    ∀ w ∈ ageWindows ws, 0 < w.left ∧ w.left ≤ n := by
  intro w hw
  obtain ⟨hpos, hold⟩ := mem_ageWindows.mp hw
  exact ⟨hpos, Nat.le_of_succ_le (h _ hold).2⟩

/-! ### The status register (R26, R30) -/

/-- A write of one bit of SR leaves a bit that holds no state. -/
theorem writeSrBit_getLsbD_of_not_implemented {s : State} {j : Fin 32} (hj : ¬ Implemented s.params j) (i : Fin 32)
    (b : Bool) : (writeSrBit s i b).sr.getLsbD j = s.sr.getLsbD j := by
  rw [writeSrBit_getLsbD, if_neg]
  rintro ⟨rfl, hi⟩
  exact hj hi

/-- A write of one field of SR leaves a bit that holds no state. -/
theorem writeSrField_getLsbD_of_not_implemented {s : State} {j : Fin 32} (hj : ¬ Implemented s.params j) (f : SrField)
    (b : Bool) : (writeSrField s f b).sr.getLsbD j = s.sr.getLsbD j :=
  writeSrBit_getLsbD_of_not_implemented hj _ b

/-- CSRFCZ's copy leaves a bit that holds no state. -/
theorem copyToCZ_getLsbD_of_not_implemented {s : State} {j : Fin 32} (hj : ¬ Implemented s.params j) (b : Bool) :
    (copyToCZ s b).sr.getLsbD j = s.sr.getLsbD j := by
  simp only [copyToCZ, writeSrField_getLsbD_of_not_implemented, writeSrField_params, hj, not_false_eq_true]

/-- MUSFR's copy leaves a bit that holds no state. -/
theorem writeLowFlags_getLsbD_of_not_implemented {s : State} {j : Fin 32} (hj : ¬ Implemented s.params j) (v : Word) :
    (writeLowFlags s v).sr.getLsbD j = s.sr.getLsbD j := by
  simp only [writeLowFlags, writeSrBit_getLsbD_of_not_implemented, writeSrBit_params, hj, not_false_eq_true]

/-- A write of a system register that is not SR leaves SR. -/
theorem writeSysReg_sr_of_ne {r : SysReg} (h : r ≠ .sr) (s : State) (v : Word) : (writeSysReg s r v).sr = s.sr := by
  cases r
  case sr => exact absurd rfl h
  all_goals rfl

/-- A write of any system register leaves the bits of SR that hold no state. -/
theorem writeSysReg_getLsbD_of_not_implemented {s : State} {j : Fin 32} (hj : ¬ Implemented s.params j) (r : SysReg)
    (v : Word) : (writeSysReg s r v).sr.getLsbD j = s.sr.getLsbD j := by
  by_cases hr : r = .sr
  · subst hr; exact (writeSr_getLsbD s v j).trans (if_neg hj)
  · rw [writeSysReg_sr_of_ne hr]

/-- No effect changes a bit of SR that holds no state. -/
theorem Effect.sr_getLsbD_of_not_implemented {i : Instr} {s u : State} {j : Fin 32} (h : Effect s i u)
    (hj : ¬ Implemented s.params j) : u.sr.getLsbD j = s.sr.getLsbD j := by
  cases h
  case csrf bp | ssrf bp => exact writeSrBit_getLsbD_of_not_implemented (s := issued s) hj bp _
  case csrfcz bp => exact copyToCZ_getLsbD_of_not_implemented (s := issued s) hj _
  case musfr r => exact writeLowFlags_getLsbD_of_not_implemented (s := issued s) hj _
  case mtsr a r x _ _ =>
    rw [openWindow_sr, writeSysReg_getLsbD_of_not_implemented (s := issued s) hj, issued_sr]
  case sleep op =>
    cases op.getLsbD 7
    · rfl
    · exact writeSrField_getLsbD_of_not_implemented (s := issued s) hj _ _
  all_goals simp

/-- Taking the breakpoint trap changes no bit of SR that holds no state. -/
theorem takeBreakpoint_sr_getLsbD_of_not_implemented {s : State} {j : Fin 32} (hj : ¬ Implemented s.params j) :
    (takeBreakpoint s).sr.getLsbD j = s.sr.getLsbD j := by
  simp only [takeBreakpoint_sr_getLsbD s rfl, hj, and_false, if_false]

/-- No instruction changes a bit of SR that holds no state. -/
theorem exec_sr_getLsbD_of_not_implemented {i : Instr} {s t : State} {j : Fin 32} (h : exec i s = .next t)
    (hj : ¬ Implemented s.params j) : t.sr.getLsbD j = s.sr.getLsbD j :=
  exec_next_of_effect (P := fun t => t.sr.getLsbD j = s.sr.getLsbD j) h (fun _ _ hu => hu)
    (fun _ he => he.sr_getLsbD_of_not_implemented hj) (fun _ => rfl)
    (fun _ => takeBreakpoint_sr_getLsbD_of_not_implemented (s := issued s) hj)

/-- No step changes a bit of SR that holds no state. -/
theorem step_sr_getLsbD_of_not_implemented {s t : State} {j : Fin 32} (h : step s = .next t)
    (hj : ¬ Implemented s.params j) : t.sr.getLsbD j = s.sr.getLsbD j :=
  step_next_of_exec (P := fun t => t.sr.getLsbD j = s.sr.getLsbD j) h rfl
    fun _ hi => exec_sr_getLsbD_of_not_implemented (s := afterFetch s) hi hj

/-- SR holds nothing outside its mask exactly when every bit that holds no state is 0. -/
theorem sr_and_not_srMask_eq_zero_iff {s : State} :
    s.sr &&& ~~~s.params.srMask = 0 ↔ ∀ j : Fin 32, ¬ Implemented s.params j → s.sr.getLsbD j = false := by
  have hword : s.sr &&& ~~~s.params.srMask = 0 ↔ ∀ j : Fin 32, (s.sr &&& ~~~s.params.srMask).getLsbD j = false :=
    ⟨fun h j => by rw [h]; exact BitVec.getLsbD_zero, fun h => word_ext fun j => (h j).trans BitVec.getLsbD_zero.symm⟩
  rw [hword]
  refine forall_congr' fun j => ?_
  rw [Implemented, BitVec.getLsbD_and, BitVec.getLsbD_not]
  cases s.params.srMask.getLsbD j <;> simp

/-! ### The general registers (R20) -/

/-- A register write leaves every other register. -/
theorem readReg_writeReg_of_ne {d r : Reg} (h : r ≠ d) (s : State) (v : Word) :
    readReg (writeReg s d v) r = readReg s r := by
  rw [readReg_writeReg, if_neg h]

/-- States with the same general registers read the same. -/
theorem readReg_congr {s u : State} (h : u.x = s.x) (r : Reg) : readReg u r = readReg s r := by
  rw [readReg, readReg, h]

/-! ### The invariant -/

/-- Fetching keeps the invariant. -/
theorem afterFetch_keeps_inv {s : State} (h : Inv s) : Inv (afterFetch s) :=
  ⟨h.memory, h.statusRegister, h.itlbEntries, h.dtlbEntries, h.tlbBound, h.windows⟩

/-- Every instruction keeps the invariant. -/
theorem exec_keeps_inv {i : Instr} {s t : State} (hs : Inv s) (h : exec i s = .next t) : Inv t where
  memory := by rw [exec_mem h, hs.memory]
  statusRegister := by
    rw [sr_and_not_srMask_eq_zero_iff, exec_params h]
    intro j hj
    rw [exec_sr_getLsbD_of_not_implemented h hj]
    exact sr_and_not_srMask_eq_zero_iff.mp hs.statusRegister j hj
  itlbEntries := by rw [(exec_tlb_lengths h).1, exec_params h, hs.itlbEntries]
  dtlbEntries := by rw [(exec_tlb_lengths h).2, exec_params h, hs.dtlbEntries]
  tlbBound := by rw [exec_params h]; exact hs.tlbBound
  windows := by
    rw [exec_params h]
    intro w hw
    obtain ⟨hpos, hnew⟩ | hold := exec_mem_windows h w hw
    · exact ⟨hnew ▸ hpos, hnew.le⟩
    · exact ageWindows_bounds hs.windows w hold

/-- Every step keeps the invariant. -/
theorem step_keeps_inv {s t : State} (hs : Inv s) (h : step s = .next t) : Inv t :=
  step_next_of_exec h hs fun _ hi => exec_keeps_inv (afterFetch_keeps_inv hs) hi

/-- The state after reset meets the invariant, whatever parameters R6 admits (R52, R260). -/
theorem inv_resetWith {p : Params} (h : TlbEntriesAdmitted p) : Inv (State.resetWith p) where
  memory := rfl
  statusRegister := by simp [State.resetWith, BitVec.and_assoc]
  itlbEntries := List.length_replicate
  dtlbEntries := List.length_replicate
  tlbBound := h
  windows := by simp [State.resetWith]

/-! ### The refusals of an instruction (R22, R140) -/

/-- The reasons an instruction's own effect can be refused for, after the checks have let it pass (R35, R44, R80, R143). -/
def effectRefusals : List Refusal :=
  [.cacheCommandIsImplementationDefined, .unmappedSystemRegister, .mmuEnable, .tlbIndexOutOfRange]

/-- An issued instruction is refused by its checks or by its effect. -/
theorem issue_refused {i : Instr} {s : State} {r : Refusal} {effect : State → Host.Outcome State Fault Refusal}
    (h : issue i s effect = .refused r) : check i s = some r ∨ effect (issued s) = .refused r := by
  unfold issue at h
  split at h
  · cases h; exact .inl ‹_›
  · exact .inr h

/-- A refused instruction failed a check of R140 or was refused by its own effect. -/
theorem exec_refused {i : Instr} {s : State} {r : Refusal} (h : exec i s = .refused r) :
    check i s = some r ∨ r ∈ effectRefusals := by
  cases i <;>
    simp only [exec, execBreakpoint, execCache, execCsrf, execCsrfcz, execFrs, execMfdr, execMfsr, execMtdr, execMtsr, execMusfr,
      execMustr, execNop, execPref, execSleep, execSrCond, execSsrf, execSync, execTlbr, execTlbs, execTlbw] at h <;>
    refine (issue_refused h).imp_right fun he => ?_
  case cache | mfsr | tlbr | tlbw =>
    split at he <;> cases he
    decide
  case mtsr =>
    split at he
    · cases he; decide
    · split at he <;> cases he
      decide
  all_goals cases he

/-- Register operand 15 is a reason of the check only, and only where `R15_ALIASES_PC` holds (R22). -/
theorem check_ne_registerOperand15 {i : Instr} {s : State} (h : s.params.r15AliasesPc = false) :
    check i s ≠ some .registerOperand15 := by
  have hu : usesAliasedPc s.params i = false := by simp [usesAliasedPc, h]
  unfold check
  simp only [hu, Bool.false_eq_true, if_false]
  split_ifs <;> simp

/-- The check of a well-formed instruction with a register operand 15 answers so where `R15_ALIASES_PC` holds (R22). -/
theorem check_registerOperand15 {i : Instr} {s : State} (hw : i.WellFormed) (hp : s.params.r15AliasesPc = true)
    (hi : (15 : Reg) ∈ regOperands i) : check i s = some .registerOperand15 := by
  have hu : usesAliasedPc s.params i = true := by simp [usesAliasedPc, hp, hi]
  simp [check, hw, hu]

/-! ### The TLB pointers (R42) -/

/-- Under the default layout a pointer below 64 written to the pointer field of the selected TLB is the index addressed. -/
theorem tlbIndex_setField {s : State} (hl : s.params.mmuLayout = defaultMmuLayout) {k : Nat} (hk : k < 64) :
    tlbIndex { s with mmucr := setField (tlbPointerField s) k s.mmucr } = k := by
  have hf : (tlbPointerField s).width = 6 ∧ (tlbPointerField s).lo + (tlbPointerField s).width ≤ 32 := by
    unfold tlbPointerField
    rw [hl]
    split <;> decide
  calc tlbIndex { s with mmucr := setField (tlbPointerField s) k s.mmucr }
      = getField (tlbPointerField s) (setField (tlbPointerField s) k s.mmucr) := rfl
    _ = k % 2 ^ (tlbPointerField s).width := getField_setField_same _ k _ hf.2
    _ = k := by rw [hf.1]; exact Nat.mod_eq_of_lt hk

/-- In a state that meets the invariant, under the default layout, the selected TLB has at most 64 entries (R6). -/
theorem Inv.selectedTlb_length_le {s : State} (h : Inv s) (hl : s.params.mmuLayout = defaultMmuLayout) :
    (selectedTlb s).length ≤ 64 := by
  obtain ⟨hi, hd⟩ := h.tlbBound hl
  unfold selectedTlb
  split
  · rwa [h.itlbEntries]
  · rwa [h.dtlbEntries]

end Sys2Proof.Machine

namespace Sys2Proof.Laws
open Sys2Proof.Machine

/-- Settles O40: an invariant lemma for the fetch and for the execution of any instruction, field by field. -/
theorem stepKeepsTheMachineInvariant : Obligations.StepKeepsTheMachineInvariant :=
  fun _ _ hs h => step_keeps_inv hs h

/-- Settles O29: the check answers first where the parameter holds; where it does not, neither the check nor an effect gives
that reason. -/
theorem registerOperand15IsRefused : Obligations.RegisterOperand15IsRefused := by
  intro i s hw
  refine ⟨fun hp hi => exec_of_check (check_registerOperand15 hw hp hi), fun hp h => ?_⟩
  obtain hc | he := exec_refused h
  · exact check_ne_registerOperand15 hp hc
  · exact absurd he (by decide)

/-- Settles O36: by the effects, of which only the listed ones touch SR. -/
theorem onlyTheseInstructionsWriteSr : Obligations.OnlyTheseInstructionsWriteSr := by
  intro i s t h
  refine exec_next_of_effect (P := fun t => t.sr ≠ s.sr → _) h (fun _ _ hu => hu) (fun u he hne => ?_)
    (fun hi _ => by subst hi; trivial) (fun hi _ => by subst hi; trivial)
  cases he
  case csrf | ssrf | csrfcz | musfr | sleep => trivial
  case mtsr a r x hx _ =>
    by_contra hsr
    have hx' : x ≠ .sr := fun e => hsr (e ▸ hx)
    exact hne (by simp [writeSysReg_sr_of_ne hx'])
  all_goals exact hne (by simp)

/-- Settles O37: by the effects, of which four write a register, their destination. -/
theorem onlyTheseInstructionsWriteRegisters : Obligations.OnlyTheseInstructionsWriteRegisters := by
  intro i s t r h
  refine exec_next_of_effect (P := fun t => readReg t r ≠ readReg s r → _) h (fun _ _ hu => hu) (fun u he hne => ?_)
    (fun _ hne => absurd rfl hne) (fun _ hne => absurd (readReg_congr (by simp) r) hne)
  cases he
  case mfdr | mfsr | mustr | srCond => exact by_contra fun hd => hne (readReg_writeReg_of_ne hd (issued s) _)
  case sleep op => exact hne (readReg_congr (by cases op.getLsbD 7 <;> simp) r)
  all_goals exact hne (readReg_congr (by simp) r)

/-- Settles O38: no effect and no trap writes such a bit, and a held core writes none. -/
theorem unimplementedSrBitsAreNeverWritten : Obligations.UnimplementedSrBitsAreNeverWritten :=
  fun _ _ _ h hj => step_sr_getLsbD_of_not_implemented h hj

/-- Settles O58: MMUCR with the index written to the pointer field, 6 bits wide, which R6's bound makes enough. -/
theorem everyTlbEntryCanBeAddressed : Obligations.EveryTlbEntryCanBeAddressed := by
  intro s k hs hl hk
  have hindex := tlbIndex_setField hl (hk.trans_le (hs.selectedTlb_length_le hl))
  exact ⟨_, hindex, congrArg ((selectedTlb s)[·]?) hindex⟩

/-- Settles O9: row by row. -/
theorem defaultConditionTable : Obligations.DefaultConditionTable := by
  intro flag cond
  cases cond <;> rfl

/-- Settles O41: the default sizes are ones R6 admits. -/
theorem resetMeetsTheMachineInvariant : Obligations.ResetMeetsTheMachineInvariant :=
  ⟨inv_resetWith fun _ => by decide, fun _ => inv_resetWith⟩

/-- Settles O45: the three checks of the fetch, in the model's order. -/
theorem fetchIsRefused : Obligations.FetchIsRefused := by
  intro s hr
  refine ⟨fun hpc => ?_, fun hpc hj => ?_, fun hpc hj hm => ?_⟩ <;> apply (step_of_running hr).2.2
  · simp [fetch, hpc]
  · simp only [fetch, hpc, hj, Bool.false_eq_true, if_false, if_true]
  · simp only [fetch, hpc, hj, hm, Bool.false_eq_true, if_false, if_true]

end Sys2Proof.Laws
end

section
/-! SUPPORT. The match of a TLB entry bit by bit under the default layout (R79), and the bits of MMUCR that TLBS and the other
instructions leave (R80, R192). -/
namespace Sys2Proof.Machine

/-! ### Fields and shifts, bit by bit -/

/-- A field's value is the number its bits make. -/
theorem getField_eq_toNat_extractLsb' (f : BitField) (w : Word) : getField f w = (w.extractLsb' f.lo f.width).toNat := by
  apply Nat.eq_of_testBit_eq
  intro k
  rw [getField_testBit, ← BitVec.getLsbD, BitVec.getLsbD_extractLsb']

/-- A field of one bit has the value 1 exactly when its bit is set. -/
theorem getField_one_bit_eq_one_iff (k : Nat) (w : Word) : getField ⟨k, 1⟩ w = 1 ↔ w.getLsbD k = true := by
  have hbit : ∀ v : BitVec 1, v.toNat = 1 ↔ v.getLsbD 0 = true := by decide
  rw [getField_eq_toNat_extractLsb', hbit, BitVec.getLsbD_extractLsb']
  simp

/-- Two words agree after a shift to the right exactly when they agree on the bits from the shift amount on. -/
theorem ushiftRight_eq_ushiftRight_iff (v w : Word) (n : Nat) :
    v >>> n = w >>> n ↔ ∀ i : Fin 32, n ≤ i.val → v.getLsbD i = w.getLsbD i := by
  constructor
  · intro h i hi
    have hbit := congrArg (·.getLsbD (i.val - n)) h
    simpa [BitVec.getLsbD_ushiftRight, Nat.add_sub_cancel' hi] using hbit
  · intro h
    refine word_ext fun i => ?_
    rw [BitVec.getLsbD_ushiftRight, BitVec.getLsbD_ushiftRight]
    by_cases hi : n + i.val < 32
    · exact h ⟨n + i.val, hi⟩ (Nat.le_add_right _ _)
    · rw [BitVec.getLsbD_of_ge _ _ (Nat.not_lt.mp hi), BitVec.getLsbD_of_ge _ _ (Nat.not_lt.mp hi)]

/-! ### The match rule under the default layout (R79) -/

/-- The address a page number stands for has the page number's bits from bit 10 on. -/
theorem vpnAddress_default_getLsbD (hi : Word) {i : Fin 32} (h : 10 ≤ i.val) :
    (vpnAddress defaultParams hi).getLsbD i = hi.getLsbD i := by
  have hw : i.val - 10 < 22 := by omega
  have hw32 : i.val - 10 < 32 := by omega
  unfold vpnAddress
  rw [BitVec.getLsbD_shiftLeft, BitVec.getLsbD_ofNat, show defaultParams.mmuLayout.vpn = ⟨10, 22⟩ from rfl, getField_testBit]
  simp [hw, hw32, Nat.not_lt.mpr h, Nat.add_sub_cancel' h]

/-- The default page size is the one the size bits select, and no page is smaller than 1 KiB. -/
theorem pageShift_default (lo : Word) :
    pageShift defaultParams lo = [10, 12, 16, 20].getD (lo.extractLsb' 2 2).toNat 0 ∧ 10 ≤ pageShift defaultParams lo := by
  have htable : ∀ size : BitVec 2, defaultPageShift.getD size.toNat 10 = [10, 12, 16, 20].getD size.toNat 0 ∧
      10 ≤ defaultPageShift.getD size.toNat 10 := by decide
  unfold pageShift
  rw [getField_eq_toNat_extractLsb']
  exact htable (lo.extractLsb' 2 2)

/-- An entry compares with a page number exactly when it is valid and agrees with it above the page offset of its size. -/
theorem compareEntry_default_iff (e : TlbEntry) (key : Word) :
    compareEntry defaultParams e (vpnAddress defaultParams key) = true ↔
      e.hi.getLsbD 9 = true ∧
        ∀ i : Fin 32, [10, 12, 16, 20].getD (e.lo.extractLsb' 2 2).toNat 0 ≤ i.val → e.hi.getLsbD i = key.getLsbD i := by
  obtain ⟨hshift, hmin⟩ := pageShift_default e.lo
  unfold compareEntry
  rw [Bool.and_eq_true, beq_iff_eq, beq_iff_eq, ushiftRight_eq_ushiftRight_iff, ← hshift]
  refine and_congr (getField_one_bit_eq_one_iff 9 e.hi) (forall₂_congr fun i hi => ?_)
  rw [vpnAddress_default_getLsbD e.hi (hmin.trans hi), vpnAddress_default_getLsbD key (hmin.trans hi)]

/-- The default address-space fields agree exactly when bits [7:0] do. -/
theorem getField_default_asid_eq_iff (v w : Word) :
    getField defaultParams.mmuLayout.asid v = getField defaultParams.mmuLayout.asid w ↔
      v.extractLsb' 0 8 = w.extractLsb' 0 8 := by
  rw [getField_eq_toNat_extractLsb', getField_eq_toNat_extractLsb']
  exact BitVec.toNat_inj

/-! ### The bits of MMUCR that TLBS leaves (R192) -/

/-- The search loop changes N only, whatever the VMM selector. -/
theorem searchEntries_getLsbD {p : Params} (hl : p.mmuLayout = defaultMmuLayout) {j : Fin 32} (hj : j.val ≠ 3) (key : Word)
    (es : List TlbEntry) (acc : TlbSearch) (i : Nat) :
    (searchEntries p key acc i es).mmucr.getLsbD j = acc.mmucr.getLsbD j := by
  induction es generalizing acc i with
  | nil => rfl
  | cons e es ih =>
    rw [searchEntries, ih]
    split
    · rw [setField_notFound hl, if_neg hj]
    · rfl

/-- A bit of MMUCR that is neither N nor in the pointer of the selected TLB is after TLBS as before. -/
theorem searchedMmucr_getLsbD {s : State} (hl : s.params.mmuLayout = defaultMmuLayout) {j : Fin 32} (hj : j.val ≠ 3)
    (hp : ¬ ((tlbPointerField s).lo ≤ j.val ∧ j.val < (tlbPointerField s).lo + (tlbPointerField s).width)) :
    (searchedMmucr s).getLsbD j = s.mmucr.getLsbD j := by
  unfold searchedMmucr
  rw [setField_getLsbD, if_neg hp, searchEntries_getLsbD hl hj, setField_notFound hl, if_neg hj]

/-- TLBS leaves the default enable bit, which lies below N and both pointers. -/
theorem searchedMmucr_getLsbD_zero {s : State} (hl : s.params.mmuLayout = defaultMmuLayout) :
    (searchedMmucr s).getLsbD 0 = s.mmucr.getLsbD 0 := by
  have hlo : 0 < (tlbPointerField s).lo := by
    unfold tlbPointerField
    rw [hl]
    split <;> decide
  exact searchedMmucr_getLsbD hl (j := 0) (by decide) fun h => Nat.not_le.mpr hlo h.1

/-! ### Translation stays off (R80) -/

/-- A write of a system register that is not MMUCR leaves MMUCR. -/
theorem writeSysReg_mmucr_of_ne {r : SysReg} (h : r ≠ .mmucr) (s : State) (v : Word) :
    (writeSysReg s r v).mmucr = s.mmucr := by
  cases r
  case mmucr => exact absurd rfl h
  all_goals rfl

/-- With the default layout and enable bit no effect turns translation on. -/
theorem Effect.keeps_translation_off {i : Instr} {s u : State} (h : Effect s i u)
    (hl : s.params.mmuLayout = defaultMmuLayout) (he : s.params.mmuEnabled = .atom 0) (hs : s.mmucr.getLsbD 0 = false) :
    u.mmucr.getLsbD 0 = false := by
  cases h
  case tlbs => exact (searchedMmucr_getLsbD_zero (s := issued s) hl).trans hs
  case mtsr a r x _ hm =>
    rw [openWindow_mmucr]
    by_cases hx : x = .mmucr
    · have hoff := hm hx
      rw [mmuEnabled, he] at hoff
      subst hx
      exact hoff
    · rw [writeSysReg_mmucr_of_ne hx, issued_mmucr, hs]
  case sleep op => cases op.getLsbD 7 <;> simpa using hs
  all_goals simpa using hs

/-- With the default layout and enable bit no instruction turns translation on. -/
theorem exec_keeps_translation_off {i : Instr} {s t : State} (h : exec i s = .next t)
    (hl : s.params.mmuLayout = defaultMmuLayout) (he : s.params.mmuEnabled = .atom 0) (hs : s.mmucr.getLsbD 0 = false) :
    t.mmucr.getLsbD 0 = false :=
  exec_next_of_effect (P := fun t => t.mmucr.getLsbD 0 = false) h (fun _ _ hu => hu)
    (fun _ hf => hf.keeps_translation_off hl he hs) (fun _ => hs) (fun _ => by simpa using hs)

end Sys2Proof.Machine

namespace Sys2Proof.Laws
open Sys2Proof.Machine

/-- Settles O28: validity and page by the comparison of R79, then the mode, the global bit and the address space. -/
theorem defaultTlbMatchRule : Obligations.DefaultTlbMatchRule := by
  intro key mmucr e
  have hshared : vmmShared defaultParams mmucr = mmucr.getLsbD 1 := rfl
  have hglobal : getField defaultParams.mmuLayout.global e.lo = 1 ↔ e.lo.getLsbD 8 = true :=
    getField_one_bit_eq_one_iff 8 e.lo
  unfold entryMatches
  rw [Bool.and_eq_true, compareEntry_default_iff, Bool.or_eq_true, Bool.or_eq_true, beq_iff_eq, beq_iff_eq, hshared, hglobal,
    getField_default_asid_eq_iff, and_assoc, or_assoc]

/-- Settles O42: MTSR is refused where it would turn translation on, TLBS leaves the enable bit, and nothing else writes MMUCR. -/
theorem noStepTurnsTranslationOn : Obligations.NoStepTurnsTranslationOn :=
  fun _ _ hl he hs h => step_next_of_exec (P := fun t => t.mmucr.getLsbD 0 = false) h hs
    fun _ hi => exec_keeps_translation_off (s := afterFetch _) hi hl he hs

end Sys2Proof.Laws
end

section
/-! SUPPORT. The formats of R103 to R110: which words are of a format, and what the row of an instruction says of its own word. -/
namespace Sys2Proof

/-! ### Words put together from parts -/

/-- Every word is a high and a low part. -/
theorem exists_append {a b : Nat} (w : BitVec (a + b)) : ∃ (x : BitVec a) (y : BitVec b), w = x ++ y :=
  ⟨_, _, BitVec.extractLsb'_append_extractLsb'.symm⟩

/-- Words put together from two parts each are equal when the parts are. -/
theorem append_eq_append_iff {a b : Nat} {x x' : BitVec a} {y y' : BitVec b} : x ++ y = x' ++ y' ↔ x = x' ∧ y = y' := by
  refine ⟨fun h => ⟨?_, ?_⟩, fun ⟨hx, hy⟩ => hx ▸ hy ▸ rfl⟩
  · simpa only [BitVec.extractLsb'_append_eq_left] using congrArg (·.extractLsb' b a) h
  · simpa only [BitVec.extractLsb'_append_eq_right] using congrArg (·.extractLsb' 0 b) h

/-- Other bits above a word's own low part make up the word exactly when they are its high part. -/
theorem append_low_eq_iff {a b : Nat} {x : BitVec a} {w : BitVec (a + b)} :
    x ++ w.extractLsb' 0 b = w ↔ x = w.extractLsb' b a := by
  conv_lhs => rhs; rw [← BitVec.extractLsb'_append_extractLsb' (x := w)]
  rw [BitVec.append_left_inj]

/-- Other bits above a slice's own low part make up the slice exactly when they are its high part. -/
theorem append_slice_eq_iff {n s a b : Nat} {x : BitVec a} {w : BitVec n} :
    x ++ w.extractLsb' s b = w.extractLsb' s (a + b) ↔ x = w.extractLsb' (s + b) a := by
  rw [← BitVec.extractLsb'_append_extractLsb'_eq_extractLsb' rfl, BitVec.append_left_inj]

/-! ### The fixed bits of a mask -/

/-- A word matches a mask of its high bits exactly when they are the fixed ones. -/
theorem and_eq_fixedHigh_iff {a b : Nat} {hi : BitVec a} {w : BitVec (a + b)} :
    w &&& (BitVec.allOnes a ++ 0#b) = hi ++ 0#b ↔ hi = w.extractLsb' b a := by
  obtain ⟨x, y, rfl⟩ := exists_append w
  simp [BitVec.and_append, append_eq_append_iff, BitVec.extractLsb'_append_eq_left, eq_comm]

/-- A word matches a mask of its high and low bits exactly when it is the fixed ones with its own bits between them. -/
theorem and_eq_fixedEnds_iff {a b c : Nat} {hi : BitVec a} {lo : BitVec c} {w : BitVec (a + b + c)} :
    w &&& (BitVec.allOnes a ++ 0#b ++ BitVec.allOnes c) = hi ++ 0#b ++ lo ↔ hi ++ w.extractLsb' c b ++ lo = w := by
  obtain ⟨v, z, rfl⟩ := exists_append w
  obtain ⟨x, y, rfl⟩ := exists_append v
  simp [BitVec.and_append, append_eq_append_iff, BitVec.extractLsb'_append_eq_of_le, BitVec.extractLsb'_append_eq_right,
    eq_comm]

/-- A word matches a mask of two runs of fixed bits, each above a field, exactly when it is those and its own fields. -/
theorem and_eq_fixedRuns_iff {a b c d : Nat} {hi : BitVec a} {lo : BitVec c} {w : BitVec (a + b + c + d)} :
    w &&& (BitVec.allOnes a ++ 0#b ++ BitVec.allOnes c ++ 0#d) = hi ++ 0#b ++ lo ++ 0#d ↔
      hi ++ w.extractLsb' (c + d) b ++ lo ++ w.extractLsb' 0 d = w := by
  obtain ⟨v, z, rfl⟩ := exists_append w
  rw [BitVec.and_append, append_eq_append_iff, and_eq_fixedEnds_iff, append_eq_append_iff]
  simp [BitVec.extractLsb'_append_eq_of_le, BitVec.extractLsb'_append_eq_right]

/-! ### The formats -/

/-- A word matches the mask of format C0 exactly when it is the fixed bits (R103). -/
theorem accepts_formatC0 {p w : Half} : w &&& 0xFFFF = p ↔ InstrWord.compact p = .compact w := by
  rw [show (0xFFFF : Half) = BitVec.allOnes 16 from rfl, BitVec.and_allOnes, InstrWord.compact.injEq, eq_comm]

/-- A word matches the mask of format CB exactly when it is the word of its own bit number (R104). -/
theorem accepts_formatCB {op : BitVec 7} {p w : Half} (h : op ++ 0#5 ++ 0b0011#4 = p) :
    w &&& 0xFE0F = p ↔ formatCB op (w.extractLsb' 4 5).toFin = .compact w := by
  subst h
  rw [formatCB, InstrWord.compact.injEq]
  exact and_eq_fixedEnds_iff (a := 7) (b := 5) (c := 4)

/-- A word matches the mask of format CR exactly when it is the word of its own register (R105). -/
theorem accepts_formatCR {op : BitVec 12} {p w : Half} (h : op ++ 0#4 = p) :
    w &&& 0xFFF0 = p ↔ formatCR op (w.extractLsb' 0 4).toFin = .compact w := by
  subst h
  rw [formatCR, InstrWord.compact.injEq]
  exact (and_eq_fixedHigh_iff (a := 12) (b := 4)).trans append_low_eq_iff.symm

/-- A word matches the mask of format CCR exactly when it is the opcode above its own two fields (R106). -/
theorem accepts_formatCCR {op : BitVec 8} {p w : Half} (h : op ++ 0#8 = p) :
    w &&& 0xFF00 = p ↔ .compact (op ++ w.extractLsb' 4 4 ++ w.extractLsb' 0 4) = InstrWord.compact w := by
  subst h
  rw [InstrWord.compact.injEq]
  exact (and_eq_fixedHigh_iff (a := 8) (b := 8)).trans
    ((append_low_eq_iff (a := 12) (b := 4)).trans (append_slice_eq_iff (a := 8) (b := 4))).symm

/-- A word matches the mask of format ERK8 exactly when it is the word of its own register and register number (R107). -/
theorem accepts_formatERK8 {op : BitVec 12} {p w : Word} (h : op ++ 0#4 ++ 0#8 ++ 0#8 = p) :
    w &&& 0xFFF0FF00 = p ↔
      formatERK8 op (w.extractLsb' 16 4).toFin (RegAddr.ofNumber (w.extractLsb' 0 8)) = .extended w := by
  subst h
  rw [formatERK8, InstrWord.extended.injEq, RegAddr.ofNumber, RegAddr.number, BitVec.extractLsb'_append_eq_left]
  exact and_eq_fixedRuns_iff (a := 12) (b := 4) (c := 8) (d := 8)

/-- A word matches the mask of format EK8 exactly when it is the word of its own operand (R108). -/
theorem accepts_formatEK8 {op : BitVec 12} {p w : Word} (h : op ++ 0#12 ++ 0#8 = p) :
    w &&& 0xFFFFFF00 = p ↔ formatEK8 op (w.extractLsb' 0 8) = .extended w := by
  subst h
  rw [formatEK8, InstrWord.extended.injEq]
  exact (and_eq_fixedHigh_iff (a := 24) (b := 8)).trans append_low_eq_iff.symm

/-- A word matches the mask of format ECACHE exactly when it is the opcode above its own three fields (R109). -/
theorem accepts_formatECACHE {op : BitVec 12} {p w : Word} (h : op ++ 0#20 = p) :
    w &&& 0xFFF00000 = p ↔
      InstrWord.extended (op ++ w.extractLsb' 16 4 ++ w.extractLsb' 11 5 ++ w.extractLsb' 0 11) = .extended w := by
  subst h
  rw [InstrWord.extended.injEq]
  exact (and_eq_fixedHigh_iff (a := 12) (b := 20)).trans
    ((append_low_eq_iff (a := 21) (b := 11)).trans
      ((append_slice_eq_iff (a := 16) (b := 5)).trans (append_slice_eq_iff (a := 12) (b := 4)))).symm

/-- A word matches the mask of format EPREF exactly when it is the opcode above its own two fields (R110). -/
theorem accepts_formatEPREF {op : BitVec 12} {p w : Word} (h : op ++ 0#20 = p) :
    w &&& 0xFFF00000 = p ↔ InstrWord.extended (op ++ w.extractLsb' 16 4 ++ w.extractLsb' 0 16) = .extended w := by
  subst h
  rw [InstrWord.extended.injEq]
  exact (and_eq_fixedHigh_iff (a := 12) (b := 20)).trans
    ((append_low_eq_iff (a := 16) (b := 16)).trans (append_slice_eq_iff (a := 12) (b := 4))).symm

/-! ### The parts of a word put together -/

/-- The middle part of a word put together from three. -/
theorem extractLsb'_append_append {a b c : Nat} (x : BitVec a) (y : BitVec b) (z : BitVec c) :
    (x ++ y ++ z).extractLsb' c b = y := by
  rw [BitVec.extractLsb'_append_eq_of_le (Nat.le_refl c), Nat.sub_self, BitVec.extractLsb'_append_eq_right]

/-- The second part of a word put together from four. -/
theorem extractLsb'_append_append_append {a b c d : Nat} (x : BitVec a) (y : BitVec b) (z : BitVec c) (u : BitVec d) :
    (x ++ y ++ z ++ u).extractLsb' (c + d) b = y := by
  rw [BitVec.extractLsb'_append_eq_of_le (Nat.le_add_left d c), Nat.add_sub_cancel, extractLsb'_append_append]

/-! ### The operands (R111) -/

/-- A cond4 code is the code of the condition it stands for. -/
theorem Cond.code_ofCode : ∀ c : BitVec 4, (Cond.ofCode c).code = c := by decide

/-- A condition is the one its code stands for. -/
theorem Cond.ofCode_code (c : Cond) : Cond.ofCode c.code = c := by cases c <;> decide

/-- The address of a register number is a multiple of 4. -/
theorem RegAddr.aligned_ofNumber (k : BitVec 8) : (RegAddr.ofNumber k).aligned = true :=
  beq_iff_eq.mpr BitVec.extractLsb'_append_eq_right

/-- An address that is a multiple of 4 is that of its register number. -/
theorem RegAddr.ofNumber_number {a : RegAddr} (h : a.aligned = true) : RegAddr.ofNumber a.number = a := by
  rw [RegAddr.ofNumber, RegAddr.number, ← beq_iff_eq.mp h]
  exact BitVec.extractLsb'_append_extractLsb' (w := 8) (len := 2)

/-- The instruction a row reads from a word has its operands in their sets (R116). -/
theorem EncodingRow.instr_wellFormed {n : Nat} (r : EncodingRow n) (o : InstrName) (w : BitVec n) :
    (r.instr o w).WellFormed := by
  cases o
  case mfdr | mfsr | mtdr | mtsr => exact RegAddr.aligned_ofNumber _
  all_goals rfl

/-! ### The fields a format carries -/

/-- A word of format CB carries its bit number (R104). -/
theorem bp_of_formatCB {op : BitVec 7} {bp : Fin 32} {w : Half} (h : formatCB op bp = .compact w) :
    (w.extractLsb' 4 5).toFin = bp := by
  cases h
  exact congrArg BitVec.toFin (extractLsb'_append_append op (BitVec.ofFin (w := 5) bp) 0b0011#4)

/-- A word of format CR carries its register (R105). -/
theorem reg_of_formatCR {op : BitVec 12} {x : Reg} {w : Half} (h : formatCR op x = .compact w) :
    (w.extractLsb' 0 4).toFin = x := by
  cases h
  exact congrArg BitVec.toFin (BitVec.extractLsb'_append_eq_right (b := BitVec.ofFin (w := 4) x))

/-- A word of format CCR carries its condition and its register (R106). -/
theorem fields_of_formatCCR {op : BitVec 8} {c : Cond} {x : Reg} {w : Half}
    (h : InstrWord.compact (op ++ c.code ++ BitVec.ofFin (w := 4) x) = .compact w) :
    Cond.ofCode (w.extractLsb' 4 4) = c ∧ (w.extractLsb' 0 4).toFin = x := by
  cases h
  exact ⟨(congrArg Cond.ofCode (extractLsb'_append_append op c.code (BitVec.ofFin (w := 4) x))).trans (Cond.ofCode_code c),
    congrArg BitVec.toFin (BitVec.extractLsb'_append_eq_right (b := BitVec.ofFin (w := 4) x))⟩

/-- A word of format ERK8 carries its register (R107). -/
theorem reg_of_formatERK8 {op : BitVec 12} {x : Reg} {a : RegAddr} {w : Word} (h : formatERK8 op x a = .extended w) :
    (w.extractLsb' 16 4).toFin = x := by
  cases h
  exact congrArg BitVec.toFin (extractLsb'_append_append_append op (BitVec.ofFin (w := 4) x) 0#8 a.number)

/-- A word of format ERK8 carries the number of its register address (R107). -/
theorem address_of_formatERK8 {op : BitVec 12} {x : Reg} {a : RegAddr} {w : Word} (h : formatERK8 op x a = .extended w)
    (ha : a.aligned = true) : RegAddr.ofNumber (w.extractLsb' 0 8) = a := by
  cases h
  exact (congrArg RegAddr.ofNumber BitVec.extractLsb'_append_eq_right).trans (RegAddr.ofNumber_number ha)

/-- A word of format EK8 carries its operand (R108). -/
theorem op_of_formatEK8 {op : BitVec 12} {k : BitVec 8} {w : Word} (h : formatEK8 op k = .extended w) :
    w.extractLsb' 0 8 = k := by
  cases h
  exact BitVec.extractLsb'_append_eq_right

/-- A word of format ECACHE carries its register, operation and displacement (R109). -/
theorem fields_of_formatECACHE {op : BitVec 12} {x : Reg} {k : BitVec 5} {d : BitVec 11} {w : Word}
    (h : InstrWord.extended (op ++ BitVec.ofFin (w := 4) x ++ k ++ d) = .extended w) :
    (w.extractLsb' 16 4).toFin = x ∧ w.extractLsb' 11 5 = k ∧ w.extractLsb' 0 11 = d := by
  cases h
  exact ⟨congrArg BitVec.toFin (extractLsb'_append_append_append op (BitVec.ofFin (w := 4) x) k d),
    extractLsb'_append_append (op ++ BitVec.ofFin (w := 4) x) k d, BitVec.extractLsb'_append_eq_right⟩

/-- A word of format EPREF carries its register and displacement (R110). -/
theorem fields_of_formatEPREF {op : BitVec 12} {x : Reg} {d : BitVec 16} {w : Word}
    (h : InstrWord.extended (op ++ BitVec.ofFin (w := 4) x ++ d) = .extended w) :
    (w.extractLsb' 16 4).toFin = x ∧ w.extractLsb' 0 16 = d := by
  cases h
  exact ⟨congrArg BitVec.toFin (extractLsb'_append_append op (BitVec.ofFin (w := 4) x) d),
    BitVec.extractLsb'_append_eq_right⟩

/-! ### The rows of the default table (R112) -/

/-- A compact row of the default table accepts the words of the instructions read from them, and no others (R112). -/
theorem accepts_iff_encode_eq_compact {o : InstrName} {r : EncodingRow 16} {w : Half}
    (h : defaultEncoding.row o = .compact r) : w &&& r.mask = r.pattern ↔ (r.instr o w).encode = .compact w := by
  cases o <;> cases h
  case csrf | csrfcz | ssrf => exact accepts_formatCB rfl
  case musfr | mustr => exact accepts_formatCR rfl
  case srCond =>
    refine (accepts_formatCCR (op := 0b01011111) rfl).trans ?_
    rw [← Cond.code_ofCode (w.extractLsb' 4 4)]
    rfl
  all_goals exact accepts_formatC0

/-- An extended row of the default table accepts the words of the instructions read from them, and no others (R112). -/
theorem accepts_iff_encode_eq_extended {o : InstrName} {r : EncodingRow 32} {w : Word}
    (h : defaultEncoding.row o = .extended r) : w &&& r.mask = r.pattern ↔ (r.instr o w).encode = .extended w := by
  cases o <;> cases h
  case mfdr | mfsr | mtdr | mtsr => exact accepts_formatERK8 rfl
  case sleep | sync => exact accepts_formatEK8 rfl
  case cache => exact accepts_formatECACHE rfl
  case pref => exact accepts_formatEPREF rfl

/-- The row of a compact instruction reads it back from its word. -/
theorem instr_of_encode_compact {i : Instr} {r : EncodingRow 16} {w : Half}
    (hr : defaultEncoding.row i.name = .compact r) (he : i.encode = .compact w) : r.instr i.name w = i := by
  cases i <;> cases hr
  case csrf bp => exact congrArg Instr.csrf (bp_of_formatCB he)
  case csrfcz bp => exact congrArg Instr.csrfcz (bp_of_formatCB he)
  case ssrf bp => exact congrArg Instr.ssrf (bp_of_formatCB he)
  case musfr x => exact congrArg Instr.musfr (reg_of_formatCR he)
  case mustr x => exact congrArg Instr.mustr (reg_of_formatCR he)
  case srCond c x => exact congrArg₂ Instr.srCond (fields_of_formatCCR he).1 (fields_of_formatCCR he).2
  all_goals rfl

/-- The row of an extended instruction reads it back from its word, if its operands are in their sets. -/
theorem instr_of_encode_extended {i : Instr} {r : EncodingRow 32} {w : Word} (hw : i.WellFormed)
    (hr : defaultEncoding.row i.name = .extended r) (he : i.encode = .extended w) : r.instr i.name w = i := by
  cases i <;> cases hr
  case mfdr x a => exact congrArg₂ Instr.mfdr (reg_of_formatERK8 he) (address_of_formatERK8 he hw)
  case mfsr x a => exact congrArg₂ Instr.mfsr (reg_of_formatERK8 he) (address_of_formatERK8 he hw)
  case mtdr a x => exact congrArg₂ Instr.mtdr (address_of_formatERK8 he hw) (reg_of_formatERK8 he)
  case mtsr a x => exact congrArg₂ Instr.mtsr (address_of_formatERK8 he hw) (reg_of_formatERK8 he)
  case sleep k => exact congrArg Instr.sleep (op_of_formatEK8 he)
  case sync k => exact congrArg Instr.sync (op_of_formatEK8 he)
  case cache x d k =>
    obtain ⟨hx, hk, hd⟩ := fields_of_formatECACHE he
    change Instr.cache (w.extractLsb' 16 4).toFin (w.extractLsb' 0 11) (w.extractLsb' 11 5) = _
    rw [hx, hd, hk]
  case pref x d => exact congrArg₂ Instr.pref (fields_of_formatEPREF he).1 (fields_of_formatEPREF he).2

/-- A slice of a word that matches a mask fixed on the slice is the pattern's. -/
theorem slice_of_accepts {n k l : Nat} {w m p : BitVec n} (h : w &&& m = p) (hm : m.extractLsb' k l = BitVec.allOnes l) :
    w.extractLsb' k l = p.extractLsb' k l := by
  rw [← h, BitVec.extractLsb'_and, hm, BitVec.and_allOnes]

/-- Every extended row of the default table fixes the opcode, bits [31:20] (R107 to R110). -/
theorem extendedRows_opcode_fixed :
    ∀ q ∈ defaultEncoding.extendedRows, q.2.mask.extractLsb' 20 12 = BitVec.allOnes 12 := by decide

end Sys2Proof
end

section
/-! SUPPORT. What the decoder and the fetch make of a word: the row that accepts it, or no row at all (R101, R112, R113). -/
namespace Sys2Proof

/-! ### Words that a row accepts, and words of no row -/

/-- Under a table whose compact rows do not overlap, a word a compact row accepts decodes to what that row reads (R112). -/
theorem decodeCompact_of_row {t : EncodingTable} {o : InstrName} {r : EncodingRow 16} {w : Half}
    (hp : t.compactRows.Pairwise fun p q => (p.2.pattern ^^^ q.2.pattern) &&& (p.2.mask &&& q.2.mask) ≠ 0)
    (hr : t.row o = .compact r) (hw : w &&& r.mask = r.pattern) : decodeCompact t w = .ok (r.instr o w) := by
  rw [decodeCompact, findRow_of_mem hp (mem_compactRows.mpr hr) hw]

/-- Under a table whose extended rows do not overlap, a word an extended row accepts decodes to what that row reads (R112). -/
theorem decodeExtended_of_row {t : EncodingTable} {o : InstrName} {r : EncodingRow 32} {w : Word}
    (hp : t.extendedRows.Pairwise fun p q => (p.2.pattern ^^^ q.2.pattern) &&& (p.2.mask &&& q.2.mask) ≠ 0)
    (hr : t.row o = .extended r) (hw : w &&& r.mask = r.pattern) : decodeExtended t w = .ok (r.instr o w) := by
  rw [decodeExtended, findRow_of_mem hp (mem_extendedRows.mpr hr) hw]

/-- A compact word is none of the 20 instructions exactly when no compact row accepts it (R113). -/
theorem decodeCompact_eq_unknown_iff {t : EncodingTable} {w : Half} :
    decodeCompact t w = .error (.unknownCompact w) ↔ ∀ o r, t.row o = .compact r → w &&& r.mask ≠ r.pattern := by
  simp only [← mem_compactRows, ← findRow_eq_none, decodeCompact]
  split <;> simp [*]

/-- An extended word is none of the 20 instructions exactly when no extended row accepts it (R113). -/
theorem decodeExtended_eq_unknown_iff {t : EncodingTable} {w : Word} :
    decodeExtended t w = .error (.unknownExtended w) ↔ ∀ o r, t.row o = .extended r → w &&& r.mask ≠ r.pattern := by
  simp only [← mem_extendedRows, ← findRow_eq_none, decodeExtended]
  split <;> simp [*]

/-- Under the default table a word is none of the 20 instructions if it has a one in a slice that every row with an opcode
like its own fixes to zero (R113, R114). -/
theorem decodeExtended_eq_unknown_of_slice {w : Word} {opcodes : List (BitVec 12)} {k l : Nat}
    (hrows : ∀ q ∈ defaultEncoding.extendedRows, q.2.pattern.extractLsb' 20 12 ∈ opcodes →
      q.2.mask.extractLsb' k l = BitVec.allOnes l ∧ q.2.pattern.extractLsb' k l = 0)
    (hop : w.extractLsb' 20 12 ∈ opcodes) (hne : w.extractLsb' k l ≠ 0) :
    decodeExtended defaultEncoding w = .error (.unknownExtended w) := by
  refine decodeExtended_eq_unknown_iff.mpr fun o r hr hw => hne ?_
  have hmem := mem_extendedRows.mpr hr
  rw [slice_of_accepts hw (extendedRows_opcode_fixed _ hmem)] at hop
  obtain ⟨hmask, hzero⟩ := hrows _ hmem hop
  rw [slice_of_accepts hw hmask, hzero]

/-! ### Bytes (R74, R101) -/

/-- The bytes of a halfword are two, which make it up again (R74). -/
theorem exists_bytesOfHalf (bigEndian : Bool) (h : Half) :
    ∃ b0 b1, bytesOfHalf bigEndian h = [b0, b1] ∧ halfOfBytes bigEndian b0 b1 = h := by
  have hwhole : h.extractLsb' 8 8 ++ h.extractLsb' 0 8 = h := BitVec.extractLsb'_append_extractLsb' (w := 8) (len := 8)
  cases bigEndian <;> exact ⟨_, _, rfl, hwhole⟩

/-- The bytes of a compact word are decoded as that word (R101). -/
theorem decode_bytes_compact {t : EncodingTable} {w : Half} (bigEndian : Bool) (rest : List Byte)
    (h : isExtended t w = false) :
    decode t bigEndian ((InstrWord.compact w).bytes bigEndian ++ rest) = (decodeCompact t w).map (·, rest) := by
  obtain ⟨b0, b1, hb, hw⟩ := exists_bytesOfHalf bigEndian w
  simp [InstrWord.bytes, decode, hb, hw, h]

/-- The bytes of an extended word are decoded as that word (R101). -/
theorem decode_bytes_extended {t : EncodingTable} {w : Word} (bigEndian : Bool) (rest : List Byte)
    (h : isExtended t (w.extractLsb' 16 16) = true) :
    decode t bigEndian ((InstrWord.extended w).bytes bigEndian ++ rest) = (decodeExtended t w).map (·, rest) := by
  obtain ⟨b0, b1, hb, hw⟩ := exists_bytesOfHalf bigEndian (w.extractLsb' 16 16)
  obtain ⟨b2, b3, hb', hw'⟩ := exists_bytesOfHalf bigEndian (w.extractLsb' 0 16)
  have hwhole : w.extractLsb' 16 16 ++ w.extractLsb' 0 16 = w :=
    BitVec.extractLsb'_append_extractLsb' (w := 16) (len := 16)
  simp [InstrWord.bytes, decode, hb, hw, hb', hw', h, hwhole]

end Sys2Proof

namespace Sys2Proof.Machine

/-- A fetch whose first halfword is not extended gives what the decoder makes of that halfword (R101). -/
theorem fetchWords_of_compact {s : State} {n : Nat} (hn : memRead s s.pc 2 = some n)
    (hext : isExtended s.params.encoding (BitVec.ofNat 16 n) = false) :
    fetchWords s = ofDecoder (decodeCompact s.params.encoding (BitVec.ofNat 16 n)) := by
  simp [fetchWords, hn, hext]

/-- A fetch whose first halfword is extended gives what the decoder makes of it and the next (R101). -/
theorem fetchWords_of_extended {s : State} {n m : Nat} (hn : memRead s s.pc 2 = some n)
    (hext : isExtended s.params.encoding (BitVec.ofNat 16 n) = true) (hm : memRead s (s.pc + 2) 2 = some m) :
    fetchWords s = ofDecoder (decodeExtended s.params.encoding (BitVec.ofNat 16 n ++ BitVec.ofNat 16 m)) := by
  simp only [fetchWords, hn, hext, if_true, hm]

end Sys2Proof.Machine

namespace Sys2Proof.Laws
open Sys2Proof.Machine

/-- Every instruction keeps the length rule (R100, R101). -/
theorem lengthRule : (i : Instr) → LengthRule.Statement i
  | .breakpoint => LengthRule.breakpoint
  | .cache p d k => LengthRule.cache p d k
  | .csrf bp => LengthRule.csrf bp
  | .csrfcz bp => LengthRule.csrfcz bp
  | .frs => LengthRule.frs
  | .mfdr x a => LengthRule.mfdr x a
  | .mfsr x a => LengthRule.mfsr x a
  | .mtdr a x => LengthRule.mtdr a x
  | .mtsr a x => LengthRule.mtsr a x
  | .musfr x => LengthRule.musfr x
  | .mustr x => LengthRule.mustr x
  | .nop => LengthRule.nop
  | .pref p d => LengthRule.pref p d
  | .sleep k => LengthRule.sleep k
  | .srCond c x => LengthRule.srCond c x
  | .ssrf bp => LengthRule.ssrf bp
  | .sync k => LengthRule.sync k
  | .tlbr => LengthRule.tlbr
  | .tlbs => LengthRule.tlbs
  | .tlbw => LengthRule.tlbw

/-- The word and the row of an instruction are both compact or both extended, and the first halfword says which (R100, R101). -/
theorem encode_and_row (i : Instr) :
    (∃ w r, i.encode = .compact w ∧ defaultEncoding.row i.name = .compact r ∧ isExtended defaultEncoding w = false) ∨
    (∃ w r, i.encode = .extended w ∧ defaultEncoding.row i.name = .extended r ∧
      isExtended defaultEncoding (w.extractLsb' 16 16) = true) := by
  have hrule := lengthRule i
  unfold LengthRule.Statement at hrule
  cases hr : defaultEncoding.row i.name with
  | compact r =>
    rw [Instr.ilen_of_compact hr] at hrule
    split at hrule
    · exact .inl ⟨_, r, ‹_›, rfl, hrule.2⟩
    · omega
  | extended r =>
    rw [Instr.ilen_of_extended hr] at hrule
    split at hrule
    · omega
    · exact .inr ⟨_, r, ‹_›, rfl, hrule.2⟩

/-- Settles O52: pair by pair of the default table. -/
theorem opcodeRowsDoNotOverlap : Obligations.OpcodeRowsDoNotOverlap := ⟨by decide, by decide⟩

/-- Settles O50: the bytes are those of the instruction's word, whose first halfword tells its length; no row but its own accepts
it, and that row reads the instruction back. -/
theorem decodeOfEncodeIsTheInstruction : Obligations.DecodeOfEncodeIsTheInstruction := by
  intro bigEndian i rest hi
  rw [Instr.encodeBytes]
  obtain ⟨w, r, he, hr, hext⟩ | ⟨w, r, he, hr, hext⟩ := encode_and_row i
  · have hread := instr_of_encode_compact hr he
    have haccept := (accepts_iff_encode_eq_compact hr).mpr (hread.symm ▸ he)
    rw [he, decode_bytes_compact bigEndian rest hext, decodeCompact_of_row opcodeRowsDoNotOverlap.1 hr haccept, hread]
    rfl
  · have hread := instr_of_encode_extended hi hr he
    have haccept := (accepts_iff_encode_eq_extended hr).mpr (hread.symm ▸ he)
    rw [he, decode_bytes_extended bigEndian rest hext, decodeExtended_of_row opcodeRowsDoNotOverlap.2 hr haccept, hread]
    rfl

/-- Settles O51: the row that decodes a word reads an instruction whose word it is. -/
theorem encodeOfDecodeIsTheWord : Obligations.EncodeOfDecodeIsTheWord := by
  refine ⟨fun w i h => ?_, fun w i h => ?_⟩
  · obtain ⟨r, hr, hw, hi⟩ := decodeCompact_eq_ok h
    rw [hi]
    exact ⟨(accepts_iff_encode_eq_compact hr).mp hw, r.instr_wellFormed _ w⟩
  · obtain ⟨r, hr, hw, hi⟩ := decodeExtended_eq_ok h
    rw [hi]
    exact ⟨(accepts_iff_encode_eq_extended hr).mp hw, r.instr_wellFormed _ w⟩

/-- Settles O47: the decoder refuses the word, and with it the step that fetches it. -/
theorem wordsOutsideTheMapAreRefused : Obligations.WordsOutsideTheMapAreRefused := by
  refine ⟨fun _ _ => decodeCompact_eq_unknown_iff, fun _ _ => decodeExtended_eq_unknown_iff,
    fun s n hrun hmay hn hext hrows => ?_, fun s n m w hrun hmay hn hext hm hw hrows => ?_⟩
  · apply (step_of_running hrun).2.2
    rw [fetch_of_mayFetch hmay, fetchWords_of_compact hn hext, decodeCompact_eq_unknown_iff.mpr hrows, ofDecoder]
  · apply (step_of_running hrun).2.2
    rw [fetch_of_mayFetch hmay, fetchWords_of_extended hn hext hm, ← hw, decodeExtended_eq_unknown_iff.mpr hrows, ofDecoder]

/-- Settles O53: the rows of those opcodes fix the field to zero. -/
theorem mustBeZeroFieldsAreChecked : Obligations.MustBeZeroFieldsAreChecked :=
  fun _ => ⟨decodeExtended_eq_unknown_of_slice (by decide), decodeExtended_eq_unknown_of_slice (by decide)⟩

/-- Settles O54: word by word. -/
theorem sampleWordsDecode : Obligations.SampleWordsDecode :=
  ⟨by decide, by decide, by decide, by decide, by decide⟩

end Sys2Proof.Laws
end

section
/-! SUPPORT. The frame of an instruction, put together from the operations its effect is made of: one rule for each operation. -/
namespace Sys2Proof.Machine

variable {parts : List Part} {s u u' : State}

/-- A change to one part, which is in the list, keeps every part outside it. -/
theorem KeptAllBut.update {q : Part} (h : KeptAllBut parts s u) (hu : ∀ p, p = q ∨ (Kept s u p → Kept s u' p))
    (hq : q ∈ parts := by decide) : KeptAllBut parts s u' :=
  fun p hp => (hu p).resolve_left (fun e => hp (e ▸ hq)) (h p hp)

/-- Issuing an instruction changes no part: the windows are the old ones, one instruction older. -/
theorem keptAllBut_issued (parts : List Part) (s : State) : KeptAllBut parts s (issued s) := by
  intro p _
  cases p <;> simp [Kept, readReg]

/-- Advancing pc changes pc only. -/
theorem KeptAllBut.advance (h : KeptAllBut parts s u) (n : Nat) (hq : .pc ∈ parts := by decide) :
    KeptAllBut parts s (advance u n) :=
  h.update (fun p => by cases p <;> simp [Kept, readReg]) hq

/-- A register write changes the general registers only. -/
theorem KeptAllBut.writeReg (h : KeptAllBut parts s u) (d : Reg) (v : Word) (hq : .x ∈ parts := by decide) :
    KeptAllBut parts s (writeReg u d v) :=
  h.update (fun p => by cases p <;> simp [Kept, readReg]) hq

/-- A write of a bit of SR changes SR only. -/
theorem KeptAllBut.writeSrBit (h : KeptAllBut parts s u) (i : Fin 32) (b : Bool) (hq : .sr ∈ parts := by decide) :
    KeptAllBut parts s (writeSrBit u i b) :=
  h.update (fun p => by cases p <;> simp [Kept, readReg]) hq

/-- A write of a field of SR changes SR only. -/
theorem KeptAllBut.writeSrField (h : KeptAllBut parts s u) (f : SrField) (b : Bool) (hq : .sr ∈ parts := by decide) :
    KeptAllBut parts s (writeSrField u f b) :=
  h.writeSrBit _ b hq

/-- CSRFCZ's copy changes SR only. -/
theorem KeptAllBut.copyToCZ (h : KeptAllBut parts s u) (b : Bool) (hq : .sr ∈ parts := by decide) :
    KeptAllBut parts s (copyToCZ u b) :=
  (h.writeSrField .c b hq).writeSrField .z b hq

/-- MUSFR's copy changes SR only. -/
theorem KeptAllBut.writeLowFlags (h : KeptAllBut parts s u) (v : Word) (hq : .sr ∈ parts := by decide) :
    KeptAllBut parts s (writeLowFlags u v) :=
  (((h.writeSrBit 0 _ hq).writeSrBit 1 _ hq).writeSrBit 2 _ hq).writeSrBit 3 _ hq

/-- A write of a debug register changes the debug registers only. -/
theorem KeptAllBut.writeDbg (h : KeptAllBut parts s u) (k : Fin 256) (v : Word) (hq : .dbg ∈ parts := by decide) :
    KeptAllBut parts s (writeDbg u k v) :=
  h.update (fun p => by cases p <;> simp [Kept, readReg]) hq

/-- The part of the state a system register is. -/
def sysRegPart : SysReg → Part
  | .sr => .sr
  | .evba => .evba
  | .rsrDbg => .rsrDbg
  | .rarDbg => .rarDbg
  | .tlbehi => .tlbehi
  | .tlbelo => .tlbelo
  | .mmucr => .mmucr

/-- A write of a system register changes that register only. -/
theorem KeptAllBut.writeSysReg (h : KeptAllBut parts s u) (r : SysReg) (v : Word) (hq : sysRegPart r ∈ parts) :
    KeptAllBut parts s (writeSysReg u r v) :=
  h.update (fun p => by cases r <;> cases p <;> simp [Kept, readReg, sysRegPart, Machine.writeSysReg]) hq

/-- Opening a hazard window changes the windows only. -/
theorem KeptAllBut.openWindow (h : KeptAllBut parts s u) (t : HazardTarget) (hq : .windows ∈ parts := by decide) :
    KeptAllBut parts s (openWindow u t) :=
  h.update (fun p => by cases p <;> simp [Kept, readReg]) hq

/-- A change of the return address stack changes that only. -/
theorem KeptAllBut.setRas (h : KeptAllBut parts s u) (l : List Word) (hq : .ras ∈ parts := by decide) :
    KeptAllBut parts s { u with ras := l } :=
  h.update (fun p => by cases p <;> simp [Kept, readReg]) hq

/-- A change of the hidden cache state changes that only. -/
theorem KeptAllBut.setCache (h : KeptAllBut parts s u) (c : CacheState) (hq : .cache ∈ parts := by decide) :
    KeptAllBut parts s { u with cache := c } :=
  h.update (fun p => by cases p <;> simp [Kept, readReg]) hq

end Sys2Proof.Machine
end

section
/-! SUPPORT. CSRF, CSRFCZ, MUSFR and MUSTR: the bits that the copies between SR and a register write (R144, R145, R151, R152). -/
namespace Sys2Proof.Machine

/-- A register reads back what was written to it. -/
theorem readReg_writeReg_same (s : State) (d : Reg) (v : Word) : readReg (writeReg s d v) d = v := by
  rw [readReg_writeReg, if_pos rfl]

/-- Advancing pc leaves every register. -/
theorem readReg_advance (s : State) (n : Nat) (r : Reg) : readReg (advance s n) r = readReg s r := rfl

/-- CSRFCZ's copy writes C and Z where they hold state, and no other bit of SR. -/
theorem copyToCZ_getLsbD (s : State) (b : Bool) (i : Fin 32) :
    (copyToCZ s b).sr.getLsbD i =
      if (i = s.params.srLayout.c ∨ i = s.params.srLayout.z) ∧ Implemented s.params i then b else s.sr.getLsbD i := by
  simp only [copyToCZ, writeSrField_getLsbD, writeSrField_params, srPos]
  by_cases hz : i = s.params.srLayout.z ∧ Implemented s.params i
  · rw [if_pos hz, if_pos ⟨.inr hz.1, hz.2⟩]
  · rw [if_neg hz]
    exact if_congr (by rw [or_and_right, or_iff_left hz]) rfl rfl

/-- The bits [3:0], one by one. -/
theorem lowBit_cases {i : Fin 32} (h : i.val < 4) : i = 0 ∨ i = 1 ∨ i = 2 ∨ i = 3 := by omega

/-- MUSFR's copy writes bits [3:0] where they hold state, and no other bit of SR. -/
theorem writeLowFlags_getLsbD (s : State) (v : Word) (i : Fin 32) :
    (writeLowFlags s v).sr.getLsbD i = if i.val < 4 ∧ Implemented s.params i then v.getLsbD i else s.sr.getLsbD i := by
  simp only [writeLowFlags, writeSrBit_getLsbD, writeSrBit_params]
  by_cases hi : i.val < 4
  · rcases lowBit_cases hi with rfl | rfl | rfl | rfl <;> simp
  · have hne : i ≠ 0 ∧ i ≠ 1 ∧ i ≠ 2 ∧ i ≠ 3 := by omega
    simp [hi, hne]

/-- `SR[3:0]` holds the four bits as they read. -/
theorem lowFlags_getLsbD (s : State) (i : Fin 32) : (lowFlags s).getLsbD i = (decide (i.val < 4) && srBit s i) := by
  by_cases hi : i.val < 4
  · rcases lowBit_cases hi with rfl | rfl | rfl | rfl <;> simp only [lowFlags, BitVec.getLsbD_append] <;> simp
  · rw [BitVec.getLsbD_of_ge _ _ (Nat.not_lt.mp hi), decide_eq_false hi, Bool.false_and]

/-- Zero extension to a word keeps the bits below the word's top. -/
theorem zext32_getLsbD {n : Nat} (v : BitVec n) (i : Fin 32) : (zext32 v).getLsbD i = v.getLsbD i :=
  (BitVec.getLsbD_setWidth 32 v i).trans (by rw [decide_eq_true i.isLt, Bool.true_and])

/-- The mask 0xF keeps the bits [3:0]. -/
theorem and_lowMask_getLsbD (w : Word) (i : Fin 32) : (w &&& 0xF).getLsbD i = (decide (i.val < 4) && w.getLsbD i) := by
  have hmask : (0xF : Word).getLsbD i = decide (i.val < 4) := by revert i; decide
  rw [BitVec.getLsbD_and, hmask, Bool.and_comm]

end Sys2Proof.Machine

namespace Sys2Proof.Laws
open Sys2Proof.Machine

/-- Settles O1: a write of one bit. -/
theorem csrfClearsTheAddressedBit : Obligations.CsrfClearsTheAddressedBit := by
  intro bp s h
  have hbit (i : Fin 32) : (writeSrBit (issued s) bp false).sr.getLsbD i =
      if i = bp ∧ Implemented s.params bp then false else s.sr.getLsbD i := writeSrBit_getLsbD (issued s) bp i false
  exact ⟨_, exec_csrf_of_ready bp h, pcMovesOn_advance (by simp) rfl, ((keptAllBut_issued _ s).writeSrBit _ _).advance _,
    fun i hi => (hbit i).trans (if_neg fun hc => hi hc.1), fun hb => (hbit bp).trans (if_pos ⟨rfl, hb⟩),
    fun hb => (hbit bp).trans (if_neg fun hc => hb hc.2)⟩

/-- Settles O4: the bit is read once, before C and Z are written. -/
theorem csrfczCopiesTheBitToCAndZ : Obligations.CsrfczCopiesTheBitToCAndZ := by
  intro bp s h
  have hbit := copyToCZ_getLsbD (issued s) (srBit (issued s) bp)
  refine ⟨_, srBit (issued s) bp, exec_csrfcz_of_ready bp h, pcMovesOn_advance (by simp) rfl,
    ((keptAllBut_issued _ s).copyToCZ _).advance _, fun hb => srBit_of_implemented hb,
    fun i hi hb => (hbit i).trans (if_pos ⟨hi, hb⟩), fun i hi => (hbit i).trans (if_neg ?_)⟩
  rintro ⟨hcz, hb⟩
  exact hi.elim (fun hne => hcz.elim hne.1 hne.2) (absurd hb)

/-- Settles O5: four writes of one bit each. -/
theorem musfrCopiesTheLowFlags : Obligations.MusfrCopiesTheLowFlags := by
  intro r s h
  have hbit := writeLowFlags_getLsbD (issued s) (readReg s r)
  refine ⟨_, exec_musfr_of_ready r h, pcMovesOn_advance (by simp) rfl, ((keptAllBut_issued _ s).writeLowFlags _).advance _,
    fun i hi hb => (hbit i).trans (if_pos ⟨hi, hb⟩), fun i hi => (hbit i).trans (if_neg ?_)⟩
  rintro ⟨hlow, hb⟩
  exact hi.elim hlow.not_ge (absurd hb)

/-- Settles O6: the four bits as they read, zeros above. -/
theorem mustrReadsTheLowFlags : Obligations.MustrReadsTheLowFlags := by
  intro d s h
  refine ⟨_, exec_mustr_of_ready d h, pcMovesOn_advance (by simp) rfl, ((keptAllBut_issued _ s).writeReg _ _).advance _,
    fun r hr => readReg_writeReg_of_ne hr (issued s) _, fun i hi hb => ?_, fun i hi => ?_⟩ <;>
    rw [readReg_advance, readReg_writeReg_same, zext32_getLsbD, lowFlags_getLsbD]
  · rw [srBit_of_implemented (s := issued s) hb, decide_eq_true hi, Bool.true_and, issued_sr]
  · rw [decide_eq_false hi.not_gt, Bool.false_and]

/-- Settles O7: bit by bit, from what MUSFR writes and what MUSTR reads. -/
theorem musfrThenMustrKeepsTheLowBits : Obligations.MusfrThenMustrKeepsTheLowBits := by
  intro r d s t u himpl ht hu
  obtain ⟨t', ht', -, -, hcopied, -⟩ := musfrCopiesTheLowFlags r s (exec_next ht).1
  obtain ⟨u', hu', -, -, -, hlow, hhigh⟩ := mustrReadsTheLowFlags d t (exec_next hu).1
  cases ht.symm.trans ht'
  cases hu.symm.trans hu'
  rw [exec_params ht] at hlow
  refine word_ext fun i => ?_
  rw [and_lowMask_getLsbD]
  by_cases hi : i.val < 4
  · rw [hlow i hi (himpl i hi), hcopied i hi (himpl i hi), decide_eq_true hi, Bool.true_and]
  · rw [hhigh i (Nat.not_lt.mp hi), decide_eq_false hi, Bool.false_and]

end Sys2Proof.Laws
end

section
/-! SUPPORT. The moves to and from the system and debug registers, and the instructions on hidden state: what they are refused
for once they are ready, and what they do. -/
namespace Sys2Proof.Machine

/-- mfsr when it is ready and its address is not mapped (R148, R35). -/
theorem exec_mfsr_of_unmapped {s : State} (d : Reg) (a : RegAddr) (h : Ready (.mfsr d a) s) (hr : sysRegAt s a = none) :
    exec (.mfsr d a) s = .refused .unmappedSystemRegister := by
  have hr' : sysRegAt (issued s) a = none := hr
  rw [exec, execMfsr, issue_of_ready h]; simp only [hr']

/-- mtsr when it is ready and its address is not mapped (R150, R35). -/
theorem exec_mtsr_of_unmapped {s : State} (a : RegAddr) (x : Reg) (h : Ready (.mtsr a x) s) (hr : sysRegAt s a = none) :
    exec (.mtsr a x) s = .refused .unmappedSystemRegister := by
  have hr' : sysRegAt (issued s) a = none := hr
  rw [exec, execMtsr, issue_of_ready h]; simp only [hr']

/-- mtsr when it is ready and would turn translation on (R150, R80). -/
theorem exec_mtsr_of_mmuEnabled {s : State} (a : RegAddr) (x : Reg) (h : Ready (.mtsr a x) s)
    (hr : sysRegAt s a = some .mmucr) (hm : mmuEnabled s.params (readReg s x) = true) :
    exec (.mtsr a x) s = .refused .mmuEnable := by
  have hr' : sysRegAt (issued s) a = some .mmucr := hr
  have hm' : mmuEnabled (issued s).params (readReg (issued s) x) = true := hm
  rw [exec, execMtsr, issue_of_ready h]; simp only [hr', hm', and_self, if_true]

/-- cache when it is ready and the policy is refuse (R143). -/
theorem exec_cache_of_refuse {s : State} (p : Reg) (disp : BitVec 11) (op : BitVec 5) (h : Ready (.cache p disp op) s)
    (hp : s.params.cachePolicy = .refuse) :
    exec (.cache p disp op) s = .refused .cacheCommandIsImplementationDefined := by
  rw [exec, execCache, issue_of_ready h]; simp only [issued_params, hp]

end Sys2Proof.Machine

namespace Sys2Proof.Laws
open Sys2Proof.Machine

/-- Settles O10: the destination reads back the register, of SR the bits that hold state. -/
theorem mfsrReadsTheMappedRegister : Obligations.MfsrReadsTheMappedRegister := by
  intro d a s h
  refine ⟨fun r hr => ⟨_, exec_mfsr_of_ready d a r h hr, pcMovesOn_advance (by simp) rfl,
    ((keptAllBut_issued _ s).writeReg _ _).advance _, fun q hq => readReg_writeReg_of_ne hq (issued s) _, ?_⟩,
    exec_mfsr_of_unmapped d a h⟩
  rw [readReg_advance, readReg_writeReg_same]
  cases r
  case sr => exact fun i hi => readSr_getLsbD (s := issued s) hi
  all_goals rfl

/-- Settles O11: one write of the register, then its window opens. -/
theorem mtsrWritesTheMappedRegister : Obligations.MtsrWritesTheMappedRegister := by
  intro a x s h
  refine ⟨fun r hr hm => ⟨_, exec_mtsr_of_ready a x r h hr hm, pcMovesOn_advance (by simp) rfl, by simp, ?_⟩,
    exec_mtsr_of_unmapped a x h, exec_mtsr_of_mmuEnabled a x h⟩
  have hkept := (((keptAllBut_issued [.pc, sysRegPart r, .windows] s).writeSysReg r (readReg s x) (by simp)).openWindow
    (.sys r) (by simp)).advance (Instr.ilen (.mtsr a x) s.params.encoding) (by simp)
  cases r
  case sr =>
    refine ⟨fun i => ?_, hkept⟩
    rw [advance_sr, openWindow_sr]
    exact writeSr_getLsbD (issued s) _ i
  all_goals exact ⟨by simp [writeSysReg], hkept⟩

/-- Settles O12: the address is that of number `k`, and plain storage reads what that register holds. -/
theorem mfdrReadsTheDebugRegister : Obligations.MfdrReadsTheDebugRegister := by
  intro d k s h
  refine ⟨_, exec_mfdr_of_ready d _ h, pcMovesOn_advance (by simp) rfl, ((keptAllBut_issued _ s).writeReg _ _).advance _,
    fun r hr => readReg_writeReg_of_ne hr (issued s) _, fun hplain => ?_⟩
  rw [readReg_advance, readReg_writeReg_same, dbgNumber_ofNat]
  exact if_pos hplain

/-- Settles O13: one write of the register of number `k`, then its window opens. -/
theorem mtdrWritesTheDebugRegister : Obligations.MtdrWritesTheDebugRegister := by
  intro k x s h
  have hexec := exec_mtdr_of_ready _ x h
  rw [dbgNumber_ofNat] at hexec
  refine ⟨_, hexec, pcMovesOn_advance (by simp) rfl, (((keptAllBut_issued _ s).writeDbg _ _).openWindow _).advance _, ?_,
    fun j hj => ?_, openWindow_windows _ _⟩ <;> simp only [advance_dbg, openWindow_dbg, writeDbg_getElem]
  · rw [if_true]
  · rw [if_neg hj, issued_dbg]

/-- Settles O15: one write of the stack. -/
theorem frsEmptiesTheReturnStack : Obligations.FrsEmptiesTheReturnStack :=
  fun s h => ⟨_, exec_frs_of_ready h, pcMovesOn_advance (by simp) rfl, rfl, ((keptAllBut_issued _ s).setRas _).advance _⟩

/-- Settles O17: one write of the hidden cache state under policy nop, none under policy refuse. -/
theorem cacheFollowsThePolicy : Obligations.CacheFollowsThePolicy :=
  fun p disp op s h => ⟨fun hp => ⟨_, exec_cache_of_ready p disp op h hp, pcMovesOn_advance (by simp) rfl,
    ((keptAllBut_issued _ s).setCache _).advance _, rfl⟩, exec_cache_of_refuse p disp op h⟩

end Sys2Proof.Laws
end

section
/-! SUPPORT. The breakpoint trap: its frame, what it saves, and its nine fields of SR (R141, R142). -/
namespace Sys2Proof.Machine

/-- Taking the trap changes pc, SR and the two registers it saves to. -/
theorem KeptAllBut.takeBreakpoint {s u : State} (h : KeptAllBut [.pc, .sr, .rsrDbg, .rarDbg] s u) :
    KeptAllBut [.pc, .sr, .rsrDbg, .rarDbg] s (takeBreakpoint u) := by
  intro p hp
  have hk := h p hp
  cases p <;> simp_all [Kept, readReg]

/-- The trap leaves the bits of SR that are none of its nine fields. -/
theorem takeBreakpoint_sr_getLsbD_of_forall_ne (s : State) {i : Fin 32}
    (hi : ∀ f ∈ trapFields, i ≠ srPos s.params.srLayout f) : (takeBreakpoint s).sr.getLsbD i = s.sr.getLsbD i := by
  simp only [trapFields, List.forall_mem_cons, srPos] at hi
  simp only [takeBreakpoint_sr_getLsbD s rfl, hi, false_and, if_false]

/-- Where its nine fields stand apart on bits that hold state, the trap gives them the values of R141. -/
theorem takeBreakpoint_trapFields {s : State} {p : Params} (hp : s.params = p) (h : TrapFieldsApart p) :
    (takeBreakpoint s).sr.getLsbD p.srLayout.r = p.bkptR ∧ (takeBreakpoint s).sr.getLsbD p.srLayout.j = p.bkptJ ∧
      (takeBreakpoint s).sr.getLsbD p.srLayout.d = true ∧ (takeBreakpoint s).sr.getLsbD p.srLayout.m2 = true ∧
      (takeBreakpoint s).sr.getLsbD p.srLayout.m1 = true ∧ (takeBreakpoint s).sr.getLsbD p.srLayout.m0 = false ∧
      (takeBreakpoint s).sr.getLsbD p.srLayout.dm = true ∧ (takeBreakpoint s).sr.getLsbD p.srLayout.em = true ∧
      (takeBreakpoint s).sr.getLsbD p.srLayout.gm = true := by
  obtain ⟨hapart, himpl⟩ := h
  simp only [trapFields, List.map_cons, List.map_nil, List.nodup_cons, List.mem_cons, not_or, srPos] at hapart
  simp only [trapFields, List.forall_mem_cons, srPos] at himpl
  -- A field is written once and by no later write, for those are of fields elsewhere.
  simp only [takeBreakpoint_sr_getLsbD s hp, hapart, himpl, Implemented, false_and, and_self, if_true, if_false]

end Sys2Proof.Machine

namespace Sys2Proof.Laws
open Sys2Proof.Machine

/-- Settles O20: the trap where the condition of R141 holds, the advance of pc where it does not. -/
theorem breakpointTrapsOrIsANop : Obligations.BreakpointTrapsOrIsANop := by
  intro s h
  have hexec := exec_breakpoint_of_ready h
  refine ⟨fun ho hd => ?_, fun hno => ?_⟩
  · have htraps : breakpointTraps (issued s) = true := by simp [breakpointTraps, ho, hd]
    rw [if_pos htraps] at hexec
    refine ⟨_, hexec, takeBreakpoint_pc _, (keptAllBut_issued _ s).takeBreakpoint, fun i hi => ?_, ?_,
      fun i hi => takeBreakpoint_sr_getLsbD_of_forall_ne (issued s) hi, takeBreakpoint_trapFields rfl⟩
    · rw [takeBreakpoint_rsrDbg]
      exact readSr_getLsbD (s := redrawn (issued s)) hi
    · rw [takeBreakpoint_rarDbg, breakpointReturnAddress, issued_params, issued_pc]
      cases s.params.bkptRarOffset
      case zero | two => rfl
      case unfixed => exact (ite_eq_or_eq _ _ _).symm
  · have htraps : ¬ breakpointTraps (issued s) = true := by rcases hno with hno | hno <;> simp [breakpointTraps, hno]
    rw [if_neg htraps] at hexec
    exact ⟨_, hexec, rfl, (keptAllBut_issued _ s).advance _⟩

end Sys2Proof.Laws
end

section
/-! SUPPORT. The bytes at pc and the halfwords fetched there (R73, R74, R101). -/
namespace Sys2Proof.Machine

/-- Bytes that are read in one run are read in two, one after the other. -/
theorem readBytes_append {m : Memory} {a : Word} {xs ys : List Byte} {n : Nat}
    (h : readBytes m a (xs.length + n) = some (xs ++ ys)) :
    readBytes m a xs.length = some xs ∧ readBytes m (a + BitVec.ofNat 32 xs.length) n = some ys := by
  induction xs generalizing a with
  | nil => simpa [readBytes] using h
  | cons x xs ih =>
    rw [List.length_cons, Nat.add_right_comm, List.cons_append] at h
    obtain ⟨b, rest, hb, hrest, heq⟩ := readBytes_succ.mp h
    obtain ⟨rfl, rfl⟩ := List.cons.inj heq
    obtain ⟨hxs, hys⟩ := ih hrest
    have haddr : a + BitVec.ofNat 32 (xs.length + 1) = a + 1 + BitVec.ofNat 32 xs.length := by
      rw [BitVec.ofNat_add, BitVec.add_assoc, BitVec.add_comm (BitVec.ofNat 32 xs.length)]; rfl
    exact ⟨readBytes_succ.mpr ⟨x, xs, hb, hxs, rfl⟩, by rw [List.length_cons, haddr, hys]⟩

/-- Two bytes in memory are read as a value whose halfword they are (R74). -/
theorem memRead_of_readBytes {s : State} {a : Word} {b0 b1 : Byte} (h : readBytes s.mem a 2 = some [b0, b1]) :
    ∃ n, memRead s a 2 = some n ∧ BitVec.ofNat 16 n = halfOfBytes s.params.bigEndian b0 b1 :=
  ⟨_, by rw [memRead, h, Option.map_some], ofNat_valueOfBytes _ b0 b1⟩

/-- Bytes at pc that decode to an instruction, as many as its length, are fetched as that instruction (R101). -/
theorem fetchWords_of_decode {s : State} {i : Instr} {bytes : List Byte}
    (hb : readBytes s.mem s.pc (i.ilen s.params.encoding) = some bytes)
    (hd : decode s.params.encoding s.params.bigEndian bytes = .ok (i, [])) : fetchWords s = .instr i := by
  obtain ⟨b0, b1, rfl, hext, hdec⟩ | ⟨b0, b1, b2, b3, rfl, hext, hdec⟩ := decode_eq_ok hd
  · obtain ⟨r, hrow, -⟩ := decodeCompact_eq_ok hdec
    rw [Instr.ilen_of_compact hrow] at hb
    obtain ⟨n, hn, hw⟩ := memRead_of_readBytes hb
    rw [fetchWords_of_compact hn (hw ▸ hext), hw, hdec, ofDecoder]
  · obtain ⟨r, hrow, -⟩ := decodeExtended_eq_ok hdec
    rw [Instr.ilen_of_extended hrow] at hb
    obtain ⟨hlow, hhigh⟩ := readBytes_append (xs := [b0, b1]) (ys := [b2, b3]) (n := 2) hb
    obtain ⟨n, hn, hw⟩ := memRead_of_readBytes hlow
    obtain ⟨m, hm, hw'⟩ := memRead_of_readBytes hhigh
    rw [fetchWords_of_extended hn (hw ▸ hext) hm, hw, hw', hdec, ofDecoder]

end Sys2Proof.Machine

namespace Sys2Proof.Laws
open Sys2Proof.Machine

/-- Settles O44: the bytes at pc are fetched as the halfwords they decode from. -/
theorem stepRunsTheDecodedInstruction : Obligations.StepRunsTheDecodedInstruction :=
  fun _ i _ hrun hmay _ hb hd =>
    ⟨(step_of_running hrun).1 i ((fetch_of_mayFetch hmay).trans (fetchWords_of_decode hb hd)), rfl⟩

end Sys2Proof.Laws
end

section
/-! SUPPORT. CSRF, SSRF and SR{cond4}: the bit of SR they write, and the condition they read (R144, R186, R188, R189). -/
namespace Sys2Proof.Machine

/-- SSRF writes the addressed bit where it holds state, and no other bit of SR. -/
theorem exec_ssrf_sr_getLsbD {bp : Fin 32} {s t : State} (h : exec (.ssrf bp) s = .next t) (i : Fin 32) :
    t.sr.getLsbD i = if i = bp ∧ Implemented s.params bp then true else s.sr.getLsbD i := by
  cases h.symm.trans (exec_ssrf_of_ready bp (exec_next h).1)
  exact writeSrBit_getLsbD (issued s) bp i true

/-- CSRF clears the addressed bit where it holds state, and writes no other bit of SR. -/
theorem exec_csrf_sr_getLsbD {bp : Fin 32} {s t : State} (h : exec (.csrf bp) s = .next t) (i : Fin 32) :
    t.sr.getLsbD i = if i = bp ∧ Implemented s.params bp then false else s.sr.getLsbD i := by
  cases h.symm.trans (exec_csrf_of_ready bp (exec_next h).1)
  exact writeSrBit_getLsbD (issued s) bp i false

/-- Where the fields of SR hold state, a condition is its row of `COND_TABLE` over the stored bits (R31). -/
theorem condHolds_of_implemented {s : State} (h : ∀ f, Implemented s.params (srPos s.params.srLayout f)) (cond : Cond) :
    condHolds s cond =
      evalBool (fun f => s.sr.getLsbD (srPos s.params.srLayout f)) s.params.condTable[cond.code.toNat] := by
  have hfield : srField s = fun f => s.sr.getLsbD (srPos s.params.srLayout f) :=
    funext fun f => srBit_of_implemented (h f)
  rw [condHolds, hfield]

end Sys2Proof.Machine

namespace Sys2Proof.Laws
open Sys2Proof.Machine

/-- Settles O2: a write of one bit. -/
theorem ssrfSetsTheAddressedBit : Obligations.SsrfSetsTheAddressedBit := by
  intro bp s h
  have hexec := exec_ssrf_of_ready bp h
  have hbit := exec_ssrf_sr_getLsbD hexec
  exact ⟨_, hexec, pcMovesOn_advance (by simp) rfl, ((keptAllBut_issued _ s).writeSrBit _ _).advance _,
    fun i hi => (hbit i).trans (if_neg fun hc => hi hc.1), fun hb => (hbit bp).trans (if_pos ⟨rfl, hb⟩),
    fun hb => (hbit bp).trans (if_neg fun hc => hb hc.2)⟩

/-- Settles O3: the second instruction decides the bit, and neither writes another. -/
theorem csrfAndSsrfAreDuals : Obligations.CsrfAndSsrfAreDuals := by
  intro bp s t u himpl
  refine ⟨fun ht hu => ⟨?_, fun i hi => ?_⟩, fun ht hu => ⟨?_, fun i hi => ?_⟩⟩
  · rw [exec_csrf_sr_getLsbD hu, exec_params ht, if_pos ⟨rfl, himpl⟩]
  · rw [exec_csrf_sr_getLsbD hu, exec_ssrf_sr_getLsbD ht, if_neg fun hc => hi hc.1, if_neg fun hc => hi hc.1]
  · rw [exec_ssrf_sr_getLsbD hu, exec_params ht, if_pos ⟨rfl, himpl⟩]
  · rw [exec_ssrf_sr_getLsbD hu, exec_csrf_sr_getLsbD ht, if_neg fun hc => hi hc.1, if_neg fun hc => hi hc.1]

/-- Settles O8: one write of the register, of the condition read from SR. -/
theorem srCondWritesTheCondition : Obligations.SrCondWritesTheCondition := by
  intro cond d s h
  refine ⟨_, exec_srCond_of_ready cond d h, pcMovesOn_advance (by simp) rfl,
    ((keptAllBut_issued _ s).writeReg _ _).advance _, fun r hr => readReg_writeReg_of_ne hr (issued s) _, ?_,
    fun himpl => ?_⟩ <;> rw [readReg_advance, readReg_writeReg_same]
  · exact ite_eq_or_eq _ _ _
  · rw [condHolds_of_implemented (s := issued s) himpl]
    rfl

end Sys2Proof.Laws
end

section
/-! SUPPORT. NOP, PREF, SYNC and SLEEP: the frames of what they write, the windows NOPs close, and the held core (R180 to R185,
R190, R268). -/
namespace Sys2Proof.Machine

variable {parts : List Part} {s u : State}

/-- Completing accesses changes the pending ones and the write buffers only. -/
theorem KeptAllBut.completeAccesses (h : KeptAllBut parts s u) (op : BitVec 8) (hp : .pending ∈ parts := by decide)
    (hw : .writeBuffers ∈ parts := by decide) : KeptAllBut parts s (completeAccesses u op) :=
  have hpending : KeptAllBut parts s { u with pending := (Machine.completeAccesses u op).pending } :=
    h.update (fun p => by cases p <;> simp [Kept, readReg]) hp
  hpending.update (fun p => by cases p <;> simp [Kept, readReg]) hw

/-- A change of the sleep mode changes that only. -/
theorem KeptAllBut.setSleep (h : KeptAllBut parts s u) (m : Option (BitVec 8)) (hq : .sleep ∈ parts := by decide) :
    KeptAllBut parts s { u with sleep := m } :=
  h.update (fun p => by cases p <;> simp [Kept, readReg]) hq

/-! ### NOP and the hazard windows (R181, R268) -/

/-- NOP depends on no register (R181). -/
theorem dependsOn_nop (p : Params) (t : HazardTarget) : dependsOn p .nop t = false := by
  cases t with
  | sys r => cases r <;> rfl
  | dbg k => rfl

/-- Where NOP is not privileged it is always ready. -/
theorem ready_nop (h : PrivClass.nop ∉ s.params.privSet) : Ready .nop s :=
  ⟨rfl, fun _ => List.not_mem_nil, fun hp => absurd hp h, fun w _ _ => dependsOn_nop s.params w.target⟩

/-- A ready NOP is followed by the rest of the NOPs. -/
theorem nops_succ_of_ready (h : Ready .nop s) (n : Nat) :
    nops (n + 1) s = nops n (advance (issued s) (Instr.nop.ilen s.params.encoding)) := by
  rw [nops, exec_nop_of_ready h]

/-- Where every open window covers at most `n + 1` instructions, every window one instruction older covers at most `n` (R268). -/
theorem ageWindows_bounds_pred {n : Nat} {ws : List HazardWindow} (h : ∀ w ∈ ws, 0 < w.left ∧ w.left ≤ n + 1) :
    ∀ w ∈ ageWindows ws, 0 < w.left ∧ w.left ≤ n := by
  intro w hw
  obtain ⟨hpos, hold⟩ := mem_ageWindows.mp hw
  exact ⟨hpos, Nat.le_of_succ_le_succ (h _ hold).2⟩

/-- As many NOPs as the longest window covers all execute, and close every window. -/
theorem nops_close_windows {n : Nat} (hpriv : PrivClass.nop ∉ s.params.privSet)
    (hws : ∀ w ∈ s.windows, 0 < w.left ∧ w.left ≤ n) : ∃ t, nops n s = some t ∧ t.windows = [] := by
  induction n generalizing s with
  | zero => exact ⟨s, rfl, List.eq_nil_iff_forall_not_mem.mpr fun w hw => absurd (hws w hw).1 (hws w hw).2.not_gt⟩
  | succ n ih =>
    rw [nops_succ_of_ready (ready_nop hpriv)]
    exact ih hpriv (ageWindows_bounds_pred hws)

end Sys2Proof.Machine

namespace Sys2Proof.Laws
open Sys2Proof.Machine

/-- Settles O14: the advance of pc, and nothing before it. -/
theorem nopOnlyAdvancesPc : Obligations.NopOnlyAdvancesPc :=
  fun s h => ⟨_, exec_nop_of_ready h, pcMovesOn_advance (by simp) rfl, (keptAllBut_issued _ s).advance _⟩

/-- Settles O16: one write of the hidden cache state. -/
theorem prefChangesNoArchitecturalState : Obligations.PrefChangesNoArchitecturalState :=
  fun p disp s h => ⟨_, exec_pref_of_ready p disp h, pcMovesOn_advance (by simp) rfl,
    ((keptAllBut_issued _ s).setCache _).advance _, rfl⟩

/-- Settles O18: the accesses `SyncOp` covers, which under the full barrier are all. -/
theorem syncCompletesAllAccesses : Obligations.SyncCompletesAllAccesses :=
  fun op s h => ⟨_, exec_sync_of_ready op h, pcMovesOn_advance (by simp) rfl,
    ((keptAllBut_issued _ s).completeAccesses op).advance _,
    fun hfull => completeAccesses_fullBarrier (s := issued s) op hfull,
    fun _ => mem_completeAccesses (s := issued s), completeAccesses_writeBuffers (issued s) op⟩

/-- Settles O19: GM is written only where Op8[7] is 1. -/
theorem sleepEntersTheMode : Obligations.SleepEntersTheMode := by
  intro op s h
  have hexec := exec_sleep_of_ready op h
  cases hop : op.getLsbD 7
  · rw [hop] at hexec
    exact ⟨_, hexec, pcMovesOn_advance rfl rfl, rfl, ((keptAllBut_issued _ s).setSleep _).advance _,
      fun hc => absurd hc (by decide), fun _ _ => rfl⟩
  · rw [hop] at hexec
    have hbit := fun i => writeSrField_getLsbD (issued s) .gm i false
    refine ⟨_, hexec, pcMovesOn_advance (by simp) rfl, rfl,
      (((keptAllBut_issued _ s).writeSrField _ _).setSleep _).advance _,
      fun _ hgm => (hbit _).trans (if_pos ⟨rfl, hgm⟩), fun i hi => (hbit i).trans (if_neg ?_)⟩
    rintro ⟨hgm, himpl⟩
    exact hi.elim (fun hc => absurd hc (by decide)) fun hi => hi.elim (absurd hgm) (absurd himpl)

/-- Settles O34: by induction on the number of NOPs, each of which makes every window one instruction older. -/
theorem nopsCloseTheHazardWindows : Obligations.NopsCloseTheHazardWindows :=
  fun _ _ hpriv hws => nops_close_windows hpriv hws

/-- Settles O48: the hold of a sleeping core comes before its fetch. -/
theorem sleepingCoreIsHeld : Obligations.SleepingCoreIsHeld :=
  fun _ _ hs he => step_of_asleep hs he

end Sys2Proof.Laws
end

section
/-! SUPPORT. The TLB instructions: the addressed entry, the frames of what they write, and the answer of the search
(R191 to R194). -/
namespace Sys2Proof.Machine

/-! ### Frames -/

section Frames

variable {parts : List Part} {s u : State}

/-- A change of TLBEHI and TLBELO changes those only. -/
theorem KeptAllBut.setTlbPair (h : KeptAllBut parts s u) (hi lo : Word) (hh : .tlbehi ∈ parts := by decide)
    (hl : .tlbelo ∈ parts := by decide) : KeptAllBut parts s { u with tlbehi := hi, tlbelo := lo } :=
  (h.writeSysReg .tlbehi hi hh).writeSysReg .tlbelo lo hl

/-- A change of MMUCR changes that only. -/
theorem KeptAllBut.setMmucr (h : KeptAllBut parts s u) (w : Word) (hq : .mmucr ∈ parts := by decide) :
    KeptAllBut parts s { u with mmucr := w } :=
  h.writeSysReg .mmucr w hq

/-- A change of the instruction TLB changes that only. -/
theorem KeptAllBut.setItlb (h : KeptAllBut parts s u) (es : List TlbEntry) (hq : .itlb ∈ parts := by decide) :
    KeptAllBut parts s { u with itlb := es } :=
  h.update (fun p => by cases p <;> simp [Kept, readReg]) hq

/-- A change of the data TLB changes that only. -/
theorem KeptAllBut.setDtlb (h : KeptAllBut parts s u) (es : List TlbEntry) (hq : .dtlb ∈ parts := by decide) :
    KeptAllBut parts s { u with dtlb := es } :=
  h.update (fun p => by cases p <;> simp [Kept, readReg]) hq

end Frames

/-! ### The addressed entry (R191, R194) -/

/-- tlbr when it is ready and the pointer is outside the TLB (R191, R44). -/
theorem exec_tlbr_of_outside {s : State} (h : Ready .tlbr s) (he : addressedEntry s = none) :
    exec .tlbr s = .refused .tlbIndexOutOfRange := by
  have he' : addressedEntry (issued s) = none := he
  rw [exec, execTlbr, issue_of_ready h]; simp only [he']

/-- tlbw when it is ready and the pointer is outside the TLB (R194, R44). -/
theorem exec_tlbw_of_outside {s : State} (h : Ready .tlbw s) (he : addressedEntry s = none) :
    exec .tlbw s = .refused .tlbIndexOutOfRange := by
  have he' : addressedEntry (issued s) = none := he
  rw [exec, execTlbw, issue_of_ready h]; simp only [he']

/-- With the instruction TLB selected, the write of the addressed entry is one of it at IRP. -/
theorem writeSelectedTlb_itlb {s : State} (h : getField s.params.mmuLayout.itlb s.tlbehi = 1) (e : TlbEntry) :
    writeSelectedTlb s (tlbIndex s) e =
      { s with itlb := s.itlb.set (getField s.params.mmuLayout.irp s.mmucr) e } := by
  simp [writeSelectedTlb, tlbIndex, tlbPointerField, itlbSelected, h]

/-- With the data TLB selected, the write of the addressed entry is one of it at DRP. -/
theorem writeSelectedTlb_dtlb {s : State} (h : ¬ getField s.params.mmuLayout.itlb s.tlbehi = 1) (e : TlbEntry) :
    writeSelectedTlb s (tlbIndex s) e =
      { s with dtlb := s.dtlb.set (getField s.params.mmuLayout.drp s.mmucr) e } := by
  simp [writeSelectedTlb, tlbIndex, tlbPointerField, itlbSelected, h]

/-- tlbw when it is ready, the instruction TLB is selected and IRP is inside it (R194). -/
theorem exec_tlbw_itlb {s : State} (h : Ready .tlbw s) (hsel : getField s.params.mmuLayout.itlb s.tlbehi = 1)
    (hlt : getField s.params.mmuLayout.irp s.mmucr < s.itlb.length) :
    exec .tlbw s = .next (advance
      { issued s with itlb := s.itlb.set (getField s.params.mmuLayout.irp s.mmucr) ⟨s.tlbehi, s.tlbelo⟩ }
      (Instr.ilen .tlbw s.params.encoding)) := by
  have he : addressedEntry s = some s.itlb[getField s.params.mmuLayout.irp s.mmucr] := by
    rw [addressedEntry_eq, if_pos hsel, List.getElem?_eq_getElem hlt]
  exact (exec_tlbw_of_ready _ h he).trans
    (congrArg (fun u => Host.Outcome.next (advance u _)) (writeSelectedTlb_itlb (s := issued s) hsel _))

/-- tlbw when it is ready, the data TLB is selected and DRP is inside it (R194, C3). -/
theorem exec_tlbw_dtlb {s : State} (h : Ready .tlbw s) (hsel : ¬ getField s.params.mmuLayout.itlb s.tlbehi = 1)
    (hlt : getField s.params.mmuLayout.drp s.mmucr < s.dtlb.length) :
    exec .tlbw s = .next (advance
      { issued s with dtlb := s.dtlb.set (getField s.params.mmuLayout.drp s.mmucr) ⟨s.tlbehi, s.tlbelo⟩ }
      (Instr.ilen .tlbw s.params.encoding)) := by
  have he : addressedEntry s = some s.dtlb[getField s.params.mmuLayout.drp s.mmucr] := by
    rw [addressedEntry_eq, if_neg hsel, List.getElem?_eq_getElem hlt]
  exact (exec_tlbw_of_ready _ h he).trans
    (congrArg (fun u => Host.Outcome.next (advance u _)) (writeSelectedTlb_dtlb (s := issued s) hsel _))

/-- The addressed entry, once written, is the one written. -/
theorem addressedEntry_writeSelectedTlb {s : State} {e : TlbEntry} (h : addressedEntry s = some e) (e' : TlbEntry) :
    addressedEntry (writeSelectedTlb s (tlbIndex s) e') = some e' := by
  rw [addressedEntry_eq] at h ⊢
  split at h
  · rename_i hsel
    obtain ⟨hlt, -⟩ := List.getElem?_eq_some_iff.mp h
    rw [writeSelectedTlb_itlb hsel, if_pos hsel, List.getElem?_set_self hlt]
  · rename_i hsel
    obtain ⟨hlt, -⟩ := List.getElem?_eq_some_iff.mp h
    rw [writeSelectedTlb_dtlb hsel, if_neg hsel, List.getElem?_set_self hlt]

/-- A TLBW that completes leaves the pair {TLBEHI, TLBELO} as the addressed entry (R194). -/
theorem addressedEntry_of_exec_tlbw {s t : State} (h : exec .tlbw s = .next t) :
    addressedEntry t = some ⟨s.tlbehi, s.tlbelo⟩ := by
  have hready := (exec_next h).1
  cases he : addressedEntry s with
  | none => cases h.symm.trans (exec_tlbw_of_outside hready he)
  | some e =>
    cases h.symm.trans (exec_tlbw_of_ready e hready he)
    exact addressedEntry_writeSelectedTlb (s := issued s) he _

/-! ### The search (R192, R193) -/

/-- What the search loop of TLBS starts from: MMUCR with N set, and no pointer (R192). -/
def searchStart (s : State) : TlbSearch := ⟨setField s.params.mmuLayout.notFound 1 s.mmucr, none⟩

/-- What the search loop of TLBS ends with (R192). -/
def tlbSearch (s : State) : TlbSearch := searchEntries s.params s.tlbehi (searchStart s) 0 (selectedTlb s)

/-- TLBS writes the pointer the search found, or a free one, into the MMUCR the search left. -/
theorem searchedMmucr_eq (s : State) :
    searchedMmucr s =
      setField (tlbPointerField s) ((tlbSearch s).ptr.getD (Config.freePointer s.draws)) (tlbSearch s).mmucr := rfl

section Default

variable {s : State} (hl : s.params.mmuLayout = defaultMmuLayout)
include hl

/-- The default pointer of the selected TLB. -/
theorem tlbPointerField_default : tlbPointerField s = if itlbSelected s then ⟨26, 6⟩ else ⟨14, 6⟩ := by
  rw [tlbPointerField, hl]; rfl

/-- The bits of the default pointer of the selected TLB. -/
theorem tlbPointerField_default_bits :
    (tlbPointerField s).lo = (if itlbSelected s then 26 else 14) ∧ (tlbPointerField s).width = 6 := by
  rw [tlbPointerField_default hl]
  split <;> exact ⟨rfl, rfl⟩

/-- The search starts with the mode bit of MMUCR as before and with N set. -/
theorem searchStart_getLsbD :
    (searchStart s).mmucr.getLsbD 1 = s.mmucr.getLsbD 1 ∧ (searchStart s).mmucr.getLsbD 3 = true :=
  ⟨(setField_notFound hl 1 s.mmucr 1).trans (if_neg (by decide)), (setField_notFound hl 1 s.mmucr 3).trans (if_pos rfl)⟩

/-- N after TLBS is as the search left it: the pointer lies above. -/
theorem searchedMmucr_getLsbD_three : (searchedMmucr s).getLsbD 3 = (tlbSearch s).mmucr.getLsbD 3 := by
  have hlo : 14 ≤ (tlbPointerField s).lo := by
    rw [(tlbPointerField_default_bits hl).1]
    split <;> decide
  exact (setField_getLsbD _ _ _ 3).trans (if_neg fun h => absurd (hlo.trans h.1) (by decide))

/-- Every bit of MMUCR outside N and the pointer of the selected TLB is after TLBS as before. -/
theorem searchedMmucr_getLsbD_default (i : Fin 32) (hi : i.val ≠ 3)
    (hp : i.val < (if itlbSelected s then 26 else 14) ∨ (if itlbSelected s then 26 else 14) + 6 ≤ i.val) :
    (searchedMmucr s).getLsbD i = s.mmucr.getLsbD i := by
  obtain ⟨hlo, hwidth⟩ := tlbPointerField_default_bits hl
  refine searchedMmucr_getLsbD hl hi fun h => ?_
  rw [hlo, hwidth] at h
  exact hp.elim h.1.not_gt h.2.not_ge

/-- A pointer below 64 that the search found is the pointer after TLBS. -/
theorem getField_searchedMmucr {j : Nat} (hptr : (tlbSearch s).ptr = some j) (hj : j < 64) :
    getField (tlbPointerField s) (searchedMmucr s) = j := by
  rw [searchedMmucr_eq, hptr]
  exact tlbIndex_setField (s := { s with mmucr := (tlbSearch s).mmucr }) hl hj

variable (hv : s.params.vmmShared = .atom 1)
include hv

/-- A search with a highest match ends with its index and N cleared. -/
theorem tlbSearch_of_match {j : Nat} {e : TlbEntry} (hj : (selectedTlb s)[j]? = some e)
    (he : entryMatches s.params s.tlbehi s.mmucr e = true)
    (hlow : ∀ k e', j < k → (selectedTlb s)[k]? = some e' → entryMatches s.params s.tlbehi s.mmucr e' = false) :
    (tlbSearch s).ptr = some j ∧ (tlbSearch s).mmucr.getLsbD 3 = false := by
  obtain ⟨-, -, hfound⟩ := searchEntries_spec hl hv s.tlbehi s.mmucr (selectedTlb s) (searchStart s) 0
    (searchStart_getLsbD hl).1
  simpa only [tlbSearch, Nat.zero_add] using hfound j e hj he hlow

/-- A search with no match ends with N set. -/
theorem tlbSearch_of_no_match (hno : ∀ e ∈ selectedTlb s, entryMatches s.params s.tlbehi s.mmucr e = false) :
    (tlbSearch s).mmucr.getLsbD 3 = true := by
  obtain ⟨-, hnone, -⟩ := searchEntries_spec hl hv s.tlbehi s.mmucr (selectedTlb s) (searchStart s) 0
    (searchStart_getLsbD hl).1
  rw [tlbSearch, hnone hno, (searchStart_getLsbD hl).2]

end Default

end Sys2Proof.Machine

namespace Sys2Proof.Laws
open Sys2Proof.Machine

/-- Settles O22: the addressed entry is read where there is one. -/
theorem tlbrReadsTheAddressedEntry : Obligations.TlbrReadsTheAddressedEntry := by
  intro s h
  rw [← addressedEntry_eq s]
  cases he : addressedEntry s with
  | none => exact exec_tlbr_of_outside h he
  | some e =>
    exact ⟨_, exec_tlbr_of_ready e h he, pcMovesOn_advance (by simp) rfl, rfl, rfl,
      ((keptAllBut_issued _ s).setTlbPair _ _).advance _⟩

/-- Settles O23: by the selector, one write of the selected TLB where the pointer is inside it. -/
theorem tlbwWritesTheAddressedEntry : Obligations.TlbwWritesTheAddressedEntry := by
  intro s h
  have hentry := addressedEntry_eq s
  by_cases hsel : getField s.params.mmuLayout.itlb s.tlbehi = 1
  · rw [if_pos hsel] at hentry ⊢
    split_ifs with hptr
    · exact ⟨_, exec_tlbw_itlb h hsel hptr, pcMovesOn_advance rfl rfl, ((keptAllBut_issued _ s).setItlb _).advance _, rfl⟩
    · exact exec_tlbw_of_outside h (hentry.trans (List.getElem?_eq_none (Nat.not_lt.mp hptr)))
  · rw [if_neg hsel] at hentry ⊢
    split_ifs with hptr
    · exact ⟨_, exec_tlbw_dtlb h hsel hptr, pcMovesOn_advance rfl rfl, ((keptAllBut_issued _ s).setDtlb _).advance _, rfl⟩
    · exact exec_tlbw_of_outside h (hentry.trans (List.getElem?_eq_none (Nat.not_lt.mp hptr)))

/-- Settles O24: TLBW leaves the pair as the addressed entry, which TLBR reads. -/
theorem tlbwThenTlbrReturnsThePair : Obligations.TlbwThenTlbrReturnsThePair :=
  fun _ _ ht h => ⟨_, exec_tlbr_of_ready _ h (addressedEntry_of_exec_tlbw ht), rfl, rfl⟩

/-- Settles O25: one write of MMUCR. -/
theorem tlbsChangesOnlyMmucr : Obligations.TlbsChangesOnlyMmucr :=
  fun s h => ⟨_, exec_tlbs_of_ready h, pcMovesOn_advance (by simp) rfl, ((keptAllBut_issued _ s).setMmucr _).advance _⟩

/-- Settles O26: the search ends with the highest match, whose index the pointer takes. -/
theorem tlbsReturnsTheHighestMatch : Obligations.TlbsReturnsTheHighestMatch := by
  intro s j e h hl hv hj hje he hlow
  obtain ⟨hptr, hn⟩ := tlbSearch_of_match (s := issued s) hl hv hje he hlow
  refine ⟨_, exec_tlbs_of_ready h, (searchedMmucr_getLsbD_three (s := issued s) hl).trans hn, ?_,
    searchedMmucr_getLsbD_default (s := issued s) hl⟩
  rw [← tlbPointerField_default hl]
  exact getField_searchedMmucr (s := issued s) hl hptr hj

/-- Settles O27: the search ends with N set, and only the pointer is written after it. -/
theorem tlbsReportsNoMatch : Obligations.TlbsReportsNoMatch :=
  fun s h hl hv hno => ⟨_, exec_tlbs_of_ready h,
    (searchedMmucr_getLsbD_three (s := issued s) hl).trans (tlbSearch_of_no_match (s := issued s) hl hv hno),
    searchedMmucr_getLsbD_default (s := issued s) hl⟩

end Sys2Proof.Laws
end

section
/-! SUPPORT. What all 20 instructions have in common: where the next one is, and what no step changes (R195, R196). -/
namespace Sys2Proof.Machine

/-- No effect moves pc. -/
theorem Effect.pc {i : Instr} {s u : State} (h : Effect s i u) : u.pc = s.pc := by
  cases h
  case sleep op => cases op.getLsbD 7 <;> simp
  all_goals simp

end Sys2Proof.Machine

namespace Sys2Proof.Laws
open Sys2Proof.Machine

/-- Settles O35: an instruction either is a BREAKPOINT that traps or completes by the advance of pc. -/
theorem onlyBreakpointTransfersControl : Obligations.OnlyBreakpointTransfersControl := by
  intro i s t h
  obtain ⟨-, ⟨hi, -, rfl⟩ | ⟨u, he | ⟨-, -, rfl⟩, rfl⟩⟩ := exec_next h
  · exact .inr ⟨hi, takeBreakpoint_pc _⟩
  · exact .inl (by rw [advance_pc, he.pc])
  · exact .inl rfl

/-- Settles O39: no instruction changes memory or a parameter, and neither does the fetch or the hold. -/
theorem stepKeepsMemoryAndParameters : Obligations.StepKeepsMemoryAndParameters := by
  intro s t h
  have hkept : t.mem = s.mem ∧ t.params = s.params :=
    step_next_of_exec (P := fun t => t.mem = s.mem ∧ t.params = s.params) h ⟨rfl, rfl⟩
      fun _ hi => ⟨exec_mem (s := afterFetch s) hi, exec_params (s := afterFetch s) hi⟩
  exact ⟨fun a => by rw [hkept.1], hkept.2⟩

end Sys2Proof.Laws
end

section
/-! SUPPORT. Application mode and the exits from it: the privilege check, the upper half of SR, the breakpoint trap, and the
events of the environment (60_exceptions.md). -/
namespace Sys2Proof.Machine

/-! ### The privilege check (R140, R235) -/

/-- The check of an instruction of `PRIV_SET` in application mode answers so, where the checks before it let it pass (R235). -/
theorem check_privilegedInApplicationMode {i : Instr} {s : State} (hw : i.WellFormed)
    (ha : s.params.r15AliasesPc = true → (15 : Reg) ∉ regOperands i) (hi : privClass i ∈ s.params.privSet)
    (hm : mode s = 0b000#3) : check i s = some .privilegedInApplicationMode := by
  have hu : usesAliasedPc s.params i = false := by simpa [usesAliasedPc] using ha
  have hp : privileged s.params i = true := by simpa [privileged] using hi
  simp [check, hw, hu, hp, inApplicationMode, hm]

/-- Privilege is a reason of the check in application mode only (R235). -/
theorem check_ne_privilegedInApplicationMode {i : Instr} {s : State} (h : mode s ≠ 0b000#3) :
    check i s ≠ some .privilegedInApplicationMode := by
  have hm : inApplicationMode s = false := by simpa [inApplicationMode] using h
  unfold check
  simp only [hm, Bool.and_false, Bool.false_eq_true, if_false]
  split_ifs <;> simp

/-- By default CSRF and SSRF are privileged at the bits of the upper half of SR (R235). -/
theorem privClass_mem_default_iff_of_srBit {i : Instr} {bp : Fin 32} (h : i = .csrf bp ∨ i = .ssrf bp) :
    privClass i ∈ defaultPrivSet ↔ 16 ≤ bp.val := by
  by_cases hb : bp.val < 16
  · refine iff_of_false ?_ hb.not_ge
    rcases h with rfl | rfl <;> simp [privClass, hb, defaultPrivSet]
  · refine iff_of_true ?_ (Nat.not_lt.mp hb)
    rcases h with rfl | rfl <;> simp [privClass, hb, defaultPrivSet]

/-! ### The upper half of SR, which holds the mode (R27, R233, R235) -/

/-- With the default layout no effect of an instruction outside the default `PRIV_SET` touches the upper half of SR. -/
theorem Effect.sr_getLsbD_of_unprivileged {i : Instr} {s u : State} (h : Effect s i u)
    (hl : s.params.srLayout = defaultSrLayout) (hi : privClass i ∉ defaultPrivSet) {j : Fin 32} (hj : 16 ≤ j.val) :
    u.sr.getLsbD j = s.sr.getLsbD j := by
  cases h
  case csrf bp | ssrf bp =>
    have hbp : ¬ 16 ≤ bp.val := (privClass_mem_default_iff_of_srBit (by simp)).not.mp hi
    refine (writeSrBit_getLsbD (issued s) bp j _).trans (if_neg ?_)
    rintro ⟨rfl, -⟩
    exact hbp hj
  case csrfcz bp =>
    refine (copyToCZ_getLsbD (issued s) _ j).trans (if_neg ?_)
    rw [issued_params, hl]
    rintro ⟨rfl | rfl, -⟩ <;> exact absurd hj (by decide)
  case musfr r => exact (writeLowFlags_getLsbD (issued s) _ j).trans (if_neg fun hc => by omega)
  case mtsr => exact absurd (show PrivClass.mtsr ∈ defaultPrivSet by decide) hi
  case sleep => exact absurd (show PrivClass.sleep ∈ defaultPrivSet by decide) hi
  all_goals simp

section Default

variable {s : State} (hl : s.params.srLayout = defaultSrLayout) (hm : s.params.srMask = defaultSrMask)
include hl hm

/-- By default the mode is the bits M2, M1 and M0 as they are stored. -/
theorem mode_default : mode s = BitVec.ofBool (s.sr.getLsbD defaultSrLayout.m2) ++
    BitVec.ofBool (s.sr.getLsbD defaultSrLayout.m1) ++ BitVec.ofBool (s.sr.getLsbD defaultSrLayout.m0) := by
  have hbit (f : SrField) (hf : defaultSrMask.getLsbD (srPos defaultSrLayout f) = true) :
      srField s f = s.sr.getLsbD (srPos defaultSrLayout f) := by
    rw [srField, hl, srBit_of_implemented (by rw [Implemented, hm, hf])]
  rw [mode, hbit .m2 (by decide), hbit .m1 (by decide), hbit .m0 (by decide)]
  rfl

/-- By default the nine fields of the trap stand apart on bits that hold state. -/
theorem trapFieldsApart_default : TrapFieldsApart s.params := by
  unfold TrapFieldsApart Implemented
  rw [hl, hm]
  decide

/-- By default the trap leaves the machine in mode 0b110 (R141, R234). -/
theorem mode_takeBreakpoint_default : mode (takeBreakpoint s) = 0b110#3 := by
  obtain ⟨-, -, -, hm2, hm1, hm0, -⟩ := takeBreakpoint_trapFields rfl (trapFieldsApart_default hl hm)
  rw [hl] at hm2 hm1 hm0
  rw [mode_default (by rw [takeBreakpoint_params, hl]) (by rw [takeBreakpoint_params, hm]), hm2, hm1, hm0]
  rfl

/-- By default a state with the parameters and the upper half of SR of another is in the same mode. -/
theorem mode_congr_default {u : State} (hp : u.params = s.params)
    (hsr : ∀ j : Fin 32, 16 ≤ j.val → u.sr.getLsbD j = s.sr.getLsbD j) : mode u = mode s := by
  rw [mode_default hl hm, mode_default (hp ▸ hl) (hp ▸ hm), hsr _ (by decide), hsr _ (by decide), hsr _ (by decide)]

/-- By default an instruction executed in application mode stays there, or is the BREAKPOINT that traps. -/
theorem exec_mode_of_application_mode {i : Instr} {t : State} (hp : s.params.privSet = defaultPrivSet)
    (hmode : mode s = 0b000#3) (h : exec i s = .next t) :
    mode t = 0b000#3 ∨ (mode t = 0b110#3 ∧ t.pc = s.evba + 0x1C) := by
  obtain ⟨⟨-, -, hpriv, -⟩, ⟨-, -, rfl⟩ | ⟨u, he, rfl⟩⟩ := exec_next h
  · exact .inr ⟨mode_takeBreakpoint_default (s := issued s) hl hm, takeBreakpoint_pc _⟩
  · have hunpriv : privClass i ∉ defaultPrivSet := fun hc => hpriv (hp ▸ hc) hmode
    have hsr (j : Fin 32) (hj : 16 ≤ j.val) : u.sr.getLsbD j = s.sr.getLsbD j := by
      rcases he with he | ⟨-, -, rfl⟩
      · exact he.sr_getLsbD_of_unprivileged hl hunpriv hj
      · rfl
    exact .inl ((mode_congr_default hl hm (exec_params h) hsr).trans hmode)

end Default

/-! ### The trap masks itself (R231) -/

/-- After a trap whose fields stand apart, the next BREAKPOINT reads SR[DM] as 1. -/
theorem srField_dm_of_breakpoint_trap {s t : State} (hf : TrapFieldsApart s.params)
    (htraps : breakpointTraps (issued s) = true) (h : exec .breakpoint s = .next t) : srField (issued t) .dm = true := by
  have himpl : Implemented s.params s.params.srLayout.dm := hf.2 .dm (by decide)
  rw [exec_breakpoint_of_ready (exec_next h).1, if_pos htraps] at h
  cases h
  obtain ⟨-, -, -, -, -, -, hdm, -⟩ := takeBreakpoint_trapFields (s := issued s) rfl hf
  rw [srField, issued_params, takeBreakpoint_params]
  exact (srBit_of_implemented (by simpa [srPos] using himpl)).trans hdm

end Sys2Proof.Machine

namespace Sys2Proof.Laws
open Sys2Proof.Machine

/-- Settles O43: outside `PRIV_SET` no instruction touches the upper half of SR, where the mode is, but the BREAKPOINT that traps;
and the fetch and the hold leave SR. -/
theorem onlyTheTrapLeavesApplicationMode : Obligations.OnlyTheTrapLeavesApplicationMode := by
  intro s t hl hm hp hmode h
  have hfetched : mode (afterFetch s) = 0b000#3 := (mode_congr_default (u := afterFetch s) hl hm rfl fun _ _ => rfl).trans hmode
  exact step_next_of_exec (P := fun t => mode t = 0b000#3 ∨ (mode t = 0b110#3 ∧ t.pc = s.evba + 0x1C)) h (.inl hmode)
    fun _ hi => exec_mode_of_application_mode (s := afterFetch s) hl hm hp hfetched hi

/-- Settles O21: the trap sets SR[DM], with which the next BREAKPOINT is a NOP. -/
theorem breakpointTrapDoesNotNest : Obligations.BreakpointTrapDoesNotNest := by
  intro s t hf htraps h hready
  have hdm : srField (issued t) .dm = true := srField_dm_of_breakpoint_trap hf htraps h
  exact (breakpointTrapsOrIsANop t hready).2 (.inr hdm)

/-- Settles O30: the check answers so in application mode; in another mode neither the check nor an effect gives that reason. -/
theorem privilegedInApplicationModeIsRefused : Obligations.PrivilegedInApplicationModeIsRefused := by
  intro i s hw ha
  refine ⟨fun hi hm => exec_of_check (check_privilegedInApplicationMode hw ha hi hm), fun hm h => ?_⟩
  obtain hc | he := exec_refused h
  · exact check_ne_privilegedInApplicationMode hm hc
  · exact absurd he (by decide)

/-- Settles O31: instruction by instruction; CSRF and SSRF by the bit they address. -/
theorem defaultPrivilegedInstructions : Obligations.DefaultPrivilegedInstructions := by
  intro i
  cases i
  case csrf bp | ssrf bp =>
    exact (List.contains_eq_mem _ _).trans (decide_eq_decide.mpr (privClass_mem_default_iff_of_srBit (by simp)))
  all_goals rfl

/-- Settles O49: the step of a raised event is its refusal, and that is named by the sleep and the masks. -/
theorem asynchronousEventsAreRefused : Obligations.AsynchronousEventsAreRefused := by
  intro s e es he
  rw [step_of_event he]
  refine ⟨fun hs => ?_, fun m hs hw => ?_, fun m hs hw => ?_⟩ <;> rw [eventRefusal, hs]
  · rfl
  · exact congrArg _ (if_pos hw)
  · exact congrArg _ (if_neg (Bool.eq_false_iff.mp hw))

end Sys2Proof.Laws
end

section
/-! SUPPORT. Reset, the fetch from absent memory, and the hazard windows: the instructions R266 lists, the check against the open
windows, and the windows after a write of a register (70_reset_and_hazards.md). -/
namespace Sys2Proof.Machine

/-! ### Which instructions depend on a register (R266) -/

/-- Every instruction but NOP depends on SR (R181). -/
theorem dependsOnSr_eq_true_iff {i : Instr} : dependsOnSr i = true ↔ i ≠ .nop := by cases i <;> simp [dependsOnSr]

/-- The test for BREAKPOINT holds of BREAKPOINT alone. -/
theorem isBreakpoint_eq_true_iff {i : Instr} : isBreakpoint i = true ↔ i = .breakpoint := beq_iff_eq

/-- The TLB instructions are TLBR, TLBS and TLBW. -/
theorem isTlbInstr_eq_true_iff {i : Instr} : isTlbInstr i = true ↔ i = .tlbr ∨ i = .tlbs ∨ i = .tlbw := by
  simp only [isTlbInstr, Bool.or_eq_true, beq_iff_eq, or_assoc]

/-- Only an MFSR at an address that `SYSREG_MAP` maps to a system register reads it back. -/
theorem readsBack_sys_iff {p : Params} {i : Instr} {r : SysReg} :
    readsBack p i (.sys r) = true ↔ ∃ d a, i = .mfsr d a ∧ p.sysRegMap.lookup a = some r := by
  cases i <;> simp [readsBack]

/-- Only an MFDR at the address of a debug register reads it back (R37). -/
theorem readsBack_dbg_iff {p : Params} {i : Instr} {k : Fin 256} :
    readsBack p i (.dbg k) = true ↔ ∃ d a, i = .mfdr d a ∧ RegAddr.number a = BitVec.ofFin (w := 8) k := by
  have hnumber (a : RegAddr) : dbgNumber a = k ↔ RegAddr.number a = BitVec.ofFin (w := 8) k :=
    ⟨fun h => h ▸ rfl, congrArg BitVec.toFin⟩
  cases i <;> simp [readsBack, hnumber]

/-- The model's dependence is that of R266's list, register by register. -/
theorem dependsOn_eq_true_iff {p : Params} {i : Instr} {t : HazardTarget} :
    dependsOn p i t = true ↔ DependsByR266 p t i := by
  unfold dependsOn
  rw [Bool.or_eq_true, or_comm]
  cases t with
  | dbg k => exact or_congr isBreakpoint_eq_true_iff readsBack_dbg_iff
  | sys r =>
    rw [readsBack_sys_iff]
    cases r
    case sr =>
      rw [dependsOnSr_eq_true_iff]
      exact or_iff_left_of_imp fun ⟨_, _, hi, _⟩ => hi ▸ nofun
    case evba => exact or_congr_left isBreakpoint_eq_true_iff
    case rsrDbg | rarDbg => exact or_iff_right Bool.false_ne_true
    case tlbehi | tlbelo | mmucr => simp only [isTlbInstr_eq_true_iff, or_assoc, DependsByR266]

/-! ### The hazard check (R140 step 4) -/

/-- The check of an instruction that depends on a register with an open window answers so, where the checks before it let it
pass (R140, R266). -/
theorem check_systemRegisterHazard {i : Instr} {s : State} {w : HazardWindow} (hw : i.WellFormed)
    (ha : s.params.r15AliasesPc = true → (15 : Reg) ∉ regOperands i)
    (hp : privClass i ∈ s.params.privSet → mode s ≠ 0b000#3) (hopen : w ∈ s.windows) (hpos : 0 < w.left)
    (hdep : dependsOn s.params i w.target = true) : check i s = some .systemRegisterHazard := by
  have hu : usesAliasedPc s.params i = false := by simpa [usesAliasedPc] using ha
  have hm : (privileged s.params i && inApplicationMode s) = false := by simpa [privileged, inApplicationMode] using hp
  have hz : hazard s i = true := List.any_eq_true.mpr ⟨w, hopen, by simp [hpos, hdep]⟩
  simp [check, hw, hu, hm, hz]

/-- A hazard is a reason of the check only where a window is open whose register the instruction depends on (R266). -/
theorem check_ne_systemRegisterHazard {i : Instr} {s : State}
    (h : ∀ w ∈ s.windows, dependsOn s.params i w.target = false) : check i s ≠ some .systemRegisterHazard := by
  have hz : hazard s i = false := List.any_eq_false.mpr fun w hw => by simp [h w hw]
  unfold check
  simp only [hz, Bool.false_eq_true, if_false]
  split_ifs <;> simp

/-! ### The windows after a write (R266) -/

/-- After an MTSR the open windows are that of the register it wrote, if the machine has windows at all, and the older ones. -/
theorem mem_windows_of_exec_mtsr {a : RegAddr} {x : Reg} {r : SysReg} {s t : State} {w : HazardWindow}
    (h : exec (.mtsr a x) s = .next t) (hr : sysRegAt s a = some r) :
    w ∈ t.windows ↔
      (0 < s.params.hazardWindow ∧ w = ⟨.sys r, s.params.hazardWindow⟩) ∨ w ∈ ageWindows s.windows := by
  refine exec_next_of_effect (P := fun t => w ∈ t.windows ↔ _) h (fun _ _ hu => hu) (fun u he => ?_) nofun nofun
  cases he with
  | mtsr _ _ r' hr' _ =>
    obtain rfl : r' = r := Option.some.inj (hr'.symm.trans hr)
    simpa using mem_openWindow (s := writeSysReg (issued s) r' (readReg s x)) (t := .sys r')

/-- After an MTDR the open windows are that of the register it wrote, if the machine has windows at all, and the older ones. -/
theorem mem_windows_of_exec_mtdr {k : Fin 256} {x : Reg} {s t : State} {w : HazardWindow}
    (h : exec (.mtdr (BitVec.ofNat 10 (4 * k.val)) x) s = .next t) :
    w ∈ t.windows ↔
      (0 < s.params.hazardWindow ∧ w = ⟨.dbg k, s.params.hazardWindow⟩) ∨ w ∈ ageWindows s.windows := by
  refine exec_next_of_effect (P := fun t => w ∈ t.windows ↔ _) h (fun _ _ hu => hu) (fun u he => ?_) nofun nofun
  cases he with
  | mtdr => rw [dbgNumber_ofNat]; exact mem_openWindow

/-- Where every window is of a register that R266 does not list for the instruction, it is not refused for a hazard. -/
theorem exec_ne_systemRegisterHazard {i : Instr} {s : State} {t : HazardTarget}
    (h : ∀ w ∈ s.windows, w.target = t) (hdep : ¬ DependsByR266 s.params t i) :
    exec i s ≠ .refused .systemRegisterHazard := by
  intro he
  obtain hc | hc := exec_refused he
  · refine check_ne_systemRegisterHazard (fun w hw => ?_) hc
    rw [h w hw]
    exact Bool.eq_false_iff.mpr (hdep ∘ dependsOn_eq_true_iff.mp)
  · exact absurd hc (by decide)

/-! ### Absent memory (R264 case c) -/

/-- A fetch with a byte of the first halfword absent is stuck at pc. -/
theorem fetchWords_of_absent {s : State} (h : memRead s s.pc 2 = none) : fetchWords s = .stuck (.stuckFetch s.pc) := by
  simp only [fetchWords, h]

/-- A fetch whose first halfword is extended, with a byte of the second absent, is stuck at the second. -/
theorem fetchWords_of_extended_absent {s : State} {n : Nat} (hn : memRead s s.pc 2 = some n)
    (hext : isExtended s.params.encoding (BitVec.ofNat 16 n) = true) (h : memRead s (s.pc + 2) 2 = none) :
    fetchWords s = .stuck (.stuckFetch (s.pc + 2)) := by
  simp only [fetchWords, hn, hext, if_true, h]

end Sys2Proof.Machine

namespace Sys2Proof.Laws
open Sys2Proof.Machine

/-- Settles O32: the check of step 4 answers so. -/
theorem hazardIsRefused : Obligations.HazardIsRefused :=
  fun _ _ _ hw ha hp hopen hpos hdep => exec_of_check (check_systemRegisterHazard hw ha hp hopen hpos hdep)

/-- Settles O33: the write opens a window of its register, and the model's dependence is R266's. -/
theorem hazardWindowOpensAfterAWrite : Obligations.HazardWindowOpensAfterAWrite := by
  intro i x s t hW hw ha hp
  refine ⟨fun a r ht hr hdep => ?_, fun k ht hdep => ?_⟩ <;> rw [← exec_params ht] at ha hp hdep
  · have hopen := (mem_windows_of_exec_mtsr ht hr).mpr (.inl ⟨hW, rfl⟩)
    exact hazardIsRefused i t _ hw ha hp hopen hW (dependsOn_eq_true_iff.mpr hdep)
  · have hopen := (mem_windows_of_exec_mtdr ht).mpr (.inl ⟨hW, rfl⟩)
    exact hazardIsRefused i t _ hw ha hp hopen hW (dependsOn_eq_true_iff.mpr hdep)

/-- Settles O56: with no older window the only one is that of the register written. -/
theorem hazardSparesIndependentInstructions : Obligations.HazardSparesIndependentInstructions := by
  intro i x s t hnone
  have holder (w : HazardWindow) : w ∉ ageWindows s.windows := by simp [hnone, ageWindows]
  refine ⟨fun a r ht hr hdep => ?_, fun k ht hdep => ?_⟩ <;> rw [← exec_params ht] at hdep <;>
    refine exec_ne_systemRegisterHazard (fun w hmem => ?_) hdep
  · obtain ⟨-, rfl⟩ | hold := (mem_windows_of_exec_mtsr ht hr).mp hmem
    · rfl
    · exact absurd hold (holder w)
  · obtain ⟨-, rfl⟩ | hold := (mem_windows_of_exec_mtdr ht).mp hmem
    · rfl
    · exact absurd hold (holder w)

/-- Settles O46: the fetch is stuck at the halfword that is absent. -/
theorem fetchFromAbsentMemoryIsStuck : Obligations.FetchFromAbsentMemoryIsStuck := by
  intro s hrun hmay
  refine ⟨fun h => ?_, fun n hn hext h => ?_⟩ <;> apply (step_of_running hrun).2.1 <;> rw [fetch_of_mayFetch hmay]
  · exact fetchWords_of_absent h
  · exact fetchWords_of_extended_absent hn hext h

/-- Settles O55: SR takes the reset value at the bits of its mask; the default values by evaluation. -/
theorem resetGivesTheResetParameters : Obligations.ResetGivesTheResetParameters := by
  refine ⟨fun p => ⟨rfl, rfl, fun i hi => ?_, rfl, rfl, rfl⟩, rfl, by decide, rfl, by decide⟩
  simp [State.resetWith, show p.srMask.getLsbD i = true from hi]

end Sys2Proof.Laws
end
